-- ==== Sys2Proof/Word.lean ====
section
/-! DEFINITION. The bit-vector types of the machine (spec/00_scope.md R5, R7): every value is unsigned and bit 0 is the
least significant bit. -/

namespace Sys2Proof

/-- A 4-bit value: a register number, a secondary key, a row count (R7, R8). -/
abbrev Nibble := BitVec 4

/-- An 8-bit value: a general register, a memory cell, a timer (R5). -/
abbrev Byte := BitVec 8

/-- The 12-bit immediate `nnn` (R8). -/
abbrev Addr12 := BitVec 12

/-- A 16-bit value: an instruction word, `pc`, `I`, a stack slot, the 16 key inputs (R5). -/
abbrev Word := BitVec 16

end Sys2Proof
end

