-- ==== Sys2Proof/Config.lean ====
section
/-! DEFINITION. The parameters of the machine, each a named constant with the value of the table of spec/00_scope.md R5, and
the values R6 leaves open that are drawn anew over time, which are opaque constants: no proof can see what they are. The
glyph table, which R6 leaves open too, is the argument of `State.resetWith` (log entry 2). -/

namespace Sys2Proof.Config

/-- `MEM_SIZE`: the number of 8-bit memory cells (R5). -/
abbrev memSize : Nat := 4096

/-- `NREGS`: the number of general registers (R5). -/
abbrev nRegs : Nat := 16

/-- `REG_WIDTH`: the bits of a general register (R5). -/
abbrev regWidth : Nat := 8

/-- `I_WIDTH`: the bits of the index register (R5). -/
abbrev iWidth : Nat := 16

/-- `PC_WIDTH`: the bits of the program counter (R5). -/
abbrev pcWidth : Nat := 16

/-- `TIMER_WIDTH`: the bits of each timer (R5). -/
abbrev timerWidth : Nat := 8

/-- `INSN_WIDTH`: the bits of an instruction word (R5). -/
abbrev insnWidth : Nat := 16

/-- `FLAG_REG`: the index of the flag register (R5). -/
abbrev flagReg : Nibble := 0xF#4

/-- `STACK_DEPTH`: the slots of the call stack (R5). -/
abbrev stackDepth : Nat := 16

/-- `DISP_W`: the display's columns (R5). -/
abbrev dispW : Nat := 64

/-- `DISP_H`: the display's rows (R5). -/
abbrev dispH : Nat := 32

/-- The display's pixels, `DISP_W * DISP_H` (R5). -/
abbrev dispPixels : Nat := dispW * dispH

/-- `NKEYS`: the key inputs (R5). -/
abbrev nKeys : Nat := 16

/-- `RESERVED_LO`: the first address of the reserved range (R5), which nothing enforces (spec/20_memory.md R56). -/
abbrev reservedLo : Nat := 0x000

/-- `RESERVED_HI`: the last address of the reserved range (R5). -/
abbrev reservedHi : Nat := 0x1FF

/-- `GLYPH_BASE`: the address of the first glyph byte (R5). -/
abbrev glyphBase : Nat := 0x050

/-- `GLYPH_BYTES`: the size of the glyph table (R5). -/
abbrev glyphBytes : Nat := 80

/-- `GLYPH_STRIDE`: the bytes of one glyph (R5). -/
abbrev glyphStride : Nat := 5

/-- `PROG_BASE`: the load address of a program and the reset value of `pc` (R5). -/
abbrev progBase : Nat := 0x200

/-- `PC_STEP`: what fetch adds to `pc`, a skip adds again and Wait-key takes back (R5). -/
abbrev pcStep : Word := 2#16

/-! The machine's types have the widths of the table: `State` declares its fields with these types. -/

theorem byte_has_regWidth : Byte = BitVec regWidth := rfl
theorem byte_has_timerWidth : Byte = BitVec timerWidth := rfl
theorem word_has_iWidth : Word = BitVec iWidth := rfl
theorem word_has_pcWidth : Word = BitVec pcWidth := rfl
theorem word_has_insnWidth : Word = BitVec insnWidth := rfl

/-- The program area begins where the reserved range ends. -/
theorem progBase_after_reserved : progBase = reservedHi + 1 := rfl

/-- `MEM_INIT`: what a cell outside the glyph table holds after a Reset, by the number of that Reset and the address.
A free value: the spec gives none (spec/10_state.md R34, spec/70_reset_and_hazards.md R191; log entry 1). -/
opaque memInit : Nat → Nat → Byte

/-- The key inputs `KEY` of the Step with a given number, bit `k` for key `k`, when no sample is queued.
A free value (spec/10_state.md R36; log entry 3). -/
opaque keyInput : Nat → Word

/-- The random input `RND` of the Step with a given number, when no sample is queued.
A free value (spec/10_state.md R37; log entry 3). -/
opaque rndInput : Nat → Byte

end Sys2Proof.Config
end

