-- ==== Sys2Proof/Machine/Memory.lean ====
section
/-! DEFINITION. Memory: the listed cells of the 4096-byte space (spec/10_state.md R34, spec/20_memory.md R50), the glyph
table it holds at reset (R57), and its one reading and one writing operation. Log entries 1 and 2. -/

namespace Sys2Proof.Machine

/-- The glyphs of the digits 0 to 7, in the default font of spec/20_memory.md R57 (PRESUMED, log entry 2). -/
def glyphsLow : List Byte :=
  [0xF0#8, 0x90#8, 0x90#8, 0x90#8, 0xF0#8] ++ [0x20#8, 0x60#8, 0x20#8, 0x20#8, 0x70#8] ++
  [0xF0#8, 0x10#8, 0xF0#8, 0x80#8, 0xF0#8] ++ [0xF0#8, 0x10#8, 0xF0#8, 0x10#8, 0xF0#8] ++
  [0x90#8, 0x90#8, 0xF0#8, 0x10#8, 0x10#8] ++ [0xF0#8, 0x80#8, 0xF0#8, 0x10#8, 0xF0#8] ++
  [0xF0#8, 0x80#8, 0xF0#8, 0x90#8, 0xF0#8] ++ [0xF0#8, 0x10#8, 0x20#8, 0x40#8, 0x40#8]

/-- The glyphs of the digits 8 to F, in the default font of spec/20_memory.md R57 (PRESUMED, log entry 2). -/
def glyphsHigh : List Byte :=
  [0xF0#8, 0x90#8, 0xF0#8, 0x90#8, 0xF0#8] ++ [0xF0#8, 0x90#8, 0xF0#8, 0x10#8, 0xF0#8] ++
  [0xF0#8, 0x90#8, 0xF0#8, 0x90#8, 0x90#8] ++ [0xE0#8, 0x90#8, 0xE0#8, 0x90#8, 0xE0#8] ++
  [0xF0#8, 0x80#8, 0x80#8, 0x80#8, 0xF0#8] ++ [0xE0#8, 0x90#8, 0x90#8, 0x90#8, 0xE0#8] ++
  [0xF0#8, 0x80#8, 0xF0#8, 0x80#8, 0xF0#8] ++ [0xF0#8, 0x80#8, 0xF0#8, 0x80#8, 0x80#8]

/-- `GLYPH_TABLE`: any 80 bytes, a parameter of the machine (spec/00_scope.md R6). -/
abbrev GlyphTable := Vector Byte Config.glyphBytes

/-- The default of the parameter, which the spec supplies from general knowledge (R57; PRESUMED, log entry 2). -/
def defaultGlyphs : GlyphTable := ⟨(glyphsLow ++ glyphsHigh).toArray, rfl⟩

/-- The listed cells, by strictly rising address. -/
abbrev Memory := List Host.Cell

/-- What an unlisted address reads as, where the spec gives it: the glyph table in 0x050 to 0x09F, and no known value
elsewhere (R34, R56; log entry 1). -/
def unlistedByte (g : GlyphTable) (a : Nat) : Option Byte :=
  if Config.glyphBase ≤ a ∧ a < Config.glyphBase + Config.glyphBytes then g[a - Config.glyphBase]? else none

/-- The value the listing gives an address, if any. -/
def listedByte : Memory → Nat → Option Byte
  | [], _ => none
  | (b, v) :: rest, a => if a = b then some v else listedByte rest a

/-- What the memory data says of an address: the listed value, else the reset contents the spec gives. -/
def knownByte (g : GlyphTable) (m : Memory) (a : Nat) : Option Byte :=
  match listedByte m a with
  | some v => some v
  | none => unlistedByte g a

/-- The byte at an address: the known one, else `MEM_INIT` (R34). -/
def byteAt (g : GlyphTable) (epoch : Nat) (m : Memory) (a : Nat) : Byte :=
  match knownByte g m a with
  | some v => v
  | none => Config.memInit epoch a

/-- The listing without an address. -/
def unlist : Memory → Nat → Memory
  | [], _ => []
  | (b, w) :: rest, a => if a = b then unlist rest a else (b, w) :: unlist rest a

/-- The listing with an address set to a value, in address order. -/
def enlist : Memory → Nat → Byte → Memory
  | [], a, v => [(a, v)]
  | (b, w) :: rest, a, v =>
    if a < b then (a, v) :: (b, w) :: rest
    else if a = b then (a, v) :: rest
    else (b, w) :: enlist rest a v

/-- Storing a byte: an address whose unlisted reading is that byte is left out of the listing. -/
def storeByte (g : GlyphTable) (m : Memory) (a : Nat) (v : Byte) : Memory :=
  if unlistedByte g a = some v then unlist m a else enlist m a v

/-- The addresses rise strictly from a bound, stay inside the space (R50), and no entry says what its address would
read as unlisted. -/
def canonicalFrom (g : GlyphTable) : Nat → Memory → Bool
  | _, [] => true
  | lo, (a, v) :: rest =>
    decide (lo ≤ a) && decide (a < Config.memSize) && !(unlistedByte g a == some v) && canonicalFrom g (a + 1) rest

/-- Bytes stored at ascending addresses. -/
def storeBytes (g : GlyphTable) (m : Memory) (a : Nat) : List Byte → Memory
  | [] => m
  | b :: bs => storeBytes g (storeByte g m a b) (a + 1) bs

/-- The canonical form of memory over a glyph table: equal memories are equal lists. -/
def Memory.wf (m : Memory) (g : GlyphTable) : Bool := canonicalFrom g 0 m

end Sys2Proof.Machine
end

