-- ==== Sys2Proof/Machine/State.lean ====
section
/-! DEFINITION. The state of the machine as plain data (spec/10_state.md), the fault latch's record, the reasons a step
could stop, and the state after Reset (R35). -/

namespace Sys2Proof.Machine

/-- The display: 32 rows of 64 one-bit pixels; pixel (column c, row r) is bit c of row r, and `DISP[idx]` is bit
`idx % 64` of row `idx / 64` (spec/10_state.md R29, R30). -/
abbrev Display := Vector (BitVec Config.dispW) Config.dispH

/-- The five fault causes (spec/60_exceptions.md R171). -/
inductive FltCause where
  /-- Code 1: a fetch with a byte above 0xFFF. -/
  | fetchRange
  /-- Code 2: a data access above 0xFFF. -/
  | memRange
  /-- Code 3: a set sprite bit beyond the last display cell. -/
  | displayRange
  /-- Code 4: a Call with a full stack. -/
  | stackOverflow
  /-- Code 5: a Return with an empty stack. -/
  | stackUnderflow
  deriving DecidableEq, Repr

/-- The record the fault latch holds: the cause, the address the instruction was fetched from, the fetched word (absent
for a fetch fault) and the offending address or index where the cause has one (spec/10_state.md R32). -/
structure FltRecord where
  cause : FltCause
  pc : Word
  ir : Option Word
  info : Option Nat
  deriving DecidableEq, Repr

/-- The two inputs of one Step (spec/40_step_cycle.md R90, R96): bit `k` of `key` is `KEY[k]`, 1 = pressed. -/
structure StepInput where
  key : Word
  rnd : Byte
  deriving DecidableEq, Repr

/-- The reasons a step stops with a fault of the host's kind. There is none: the spec describes what each of its five
faults does (the latch is set and nothing else changes, R172), so taking one is a next state (log entry 6). -/
inductive Fault where
  deriving DecidableEq, Repr

/-- The reasons a step is refused. -/
inductive Refusal where
  /-- Raised by a refused arm of `exec` for an instruction that has no meaning yet, by its mnemonic; no arm does.
  Safe: the machine stops where the hardware goes on. -/
  | notModelled (mnemonic : String)
  deriving DecidableEq, Repr

/-- The state of the machine (spec/10_state.md). -/
structure State where
  /-- `V[0]` to `V[15]` (R20, R21). -/
  v : Vector Byte Config.nRegs
  /-- `I` (R23). -/
  i : Word
  /-- `pc` (R24). -/
  pc : Word
  /-- `STK[0]` to `STK[15]` (R26). -/
  stk : Vector Word Config.stackDepth
  /-- `SC`, 0 to 16 (R26). -/
  sc : Fin (Config.stackDepth + 1)
  /-- `DT` (R28). -/
  dt : Byte
  /-- `ST` (R28). -/
  st : Byte
  /-- `DISP` (R29). -/
  disp : Display
  /-- `IR` (R31). -/
  ir : Word
  /-- `FLT` (R32). -/
  flt : Option FltRecord
  /-- `MEM` (R34). -/
  mem : Memory
  /-- `GLYPH_TABLE`, a parameter of the machine (spec/00_scope.md R6): what Reset copies to 0x050 to 0x09F. No instruction
  reads or writes it here; memory is its own copy (log entry 2). -/
  glyphs : GlyphTable
  /-- The model's own: the number of the last Reset, which `MEM_INIT` depends on (log entry 1). -/
  epoch : Nat
  /-- The model's own: the known inputs of the coming Steps, oldest first (log entry 3). -/
  inputs : List StepInput
  /-- The model's own: the counter at which the free inputs are drawn (log entry 3). -/
  tick : Nat
  deriving DecidableEq, Repr

/-- The machine right after Reset (R35), for a glyph table (spec/00_scope.md R6). `I` is 0 by the spec's decision D11 (log
entry 5); `STK` and `IR` are 0 by a DESIGN CHOICE (log entry 4), and so are the model's own fields `epoch`, `inputs` and
`tick` (log entries 1 and 3). -/
def State.resetWith (glyphs : GlyphTable) : State where
  v := Vector.replicate Config.nRegs 0#8
  i := 0#16
  pc := BitVec.ofNat 16 Config.progBase
  stk := Vector.replicate Config.stackDepth 0#16
  sc := 0
  dt := 0#8
  st := 0#8
  disp := Vector.replicate Config.dispH (BitVec.ofNat Config.dispW 0)
  ir := 0#16
  flt := none
  mem := []
  glyphs := glyphs
  epoch := 0
  inputs := []
  tick := 0

/-- The machine right after Reset with the default glyph table the spec supplies (spec/20_memory.md R57; PRESUMED, log
entry 2). -/
def State.reset : State := State.resetWith defaultGlyphs

end Sys2Proof.Machine
end

