-- ==== Sys2Proof/Machine/Ops.lean ====
section
/-! DEFINITION. The named operations over registers, memory, stack, display, timers and inputs, and TAKING A FAULT as one
shared operation (spec/60_exceptions.md R172). There is no return from a fault: only Reset clears the latch (R177), see
`State.reinit` in Environment.lean. -/

namespace Sys2Proof.Machine

/-! ## Registers (spec/10_state.md R20 to R24, R28) -/

/-- `V[x]`. -/
def State.reg (s : State) (x : Nibble) : Byte := s.v[x.toNat]'x.isLt

/-- `V[x] <- b`. -/
def State.setReg (s : State) (x : Nibble) (b : Byte) : State := { s with v := s.v.set x.toNat b x.isLt }

/-- `V[0xF] <- b`, the flag register (R21). -/
def State.setFlag (s : State) (b : Byte) : State := s.setReg Config.flagReg b

/-- `pc <- a`. -/
def State.setPc (s : State) (a : Word) : State := { s with pc := a }

/-- `I <- a`. -/
def State.setI (s : State) (a : Word) : State := { s with i := a }

/-- `DT <- b`. -/
def State.setDt (s : State) (b : Byte) : State := { s with dt := b }

/-- `ST <- b`. -/
def State.setSt (s : State) (b : Byte) : State := { s with st := b }

/-- `DISP <- d`. -/
def State.setDisp (s : State) (d : Display) : State := { s with disp := d }

/-- The skip: `pc` advances by 2 again where the condition holds (spec/42_skips.md). -/
def State.skipIf (s : State) (c : Bool) : State := if c then s.setPc (s.pc + Config.pcStep) else s

/-! ## Inputs (spec/10_state.md R36, R37; spec/40_step_cycle.md R96; log entry 3) -/

/-- `KEY` of this Step: the queued sample, else a free value. -/
def State.key (s : State) : Word :=
  match s.inputs with
  | [] => Config.keyInput s.tick
  | sample :: _ => sample.key

/-- `RND` of this Step: the queued sample, else a free value. -/
def State.rnd (s : State) : Byte :=
  match s.inputs with
  | [] => Config.rndInput s.tick
  | sample :: _ => sample.rnd

/-- The inputs of the next Step become current. -/
def State.nextInput (s : State) : State := { s with inputs := s.inputs.tail, tick := s.tick + 1 }

/-! ## Faults (spec/60_exceptions.md R171, R172) -/

/-- What a handler or the fetch raises, with what R171 records of it. -/
inductive Raised where
  | fetchRange (a : Nat)
  | memRange (a : Nat)
  | displayRange (idx : Nat)
  | stackOverflow
  | stackUnderflow
  deriving DecidableEq, Repr

/-- The cause recorded (R171). -/
def Raised.cause : Raised → FltCause
  | .fetchRange _ => .fetchRange
  | .memRange _ => .memRange
  | .displayRange _ => .displayRange
  | .stackOverflow => .stackOverflow
  | .stackUnderflow => .stackUnderflow

/-- The `info` recorded (R171). -/
def Raised.info : Raised → Option Nat
  | .fetchRange a => some a
  | .memRange a => some a
  | .displayRange idx => some idx
  | .stackOverflow => none
  | .stackUnderflow => none

/-- The numeric code of a cause (R171). -/
def FltCause.code : FltCause → Nat
  | .fetchRange => 1
  | .memRange => 2
  | .displayRange => 3
  | .stackOverflow => 4
  | .stackUnderflow => 5

/-- Taking a fault (R172): the latch receives the cause, the address `a` of the instruction, its word and the info, and
`pc` is back at `a`; nothing else changes, and control goes nowhere. -/
def State.latch (s : State) (a : Word) (word : Option Word) (r : Raised) : State :=
  { s with pc := a, flt := some { cause := r.cause, pc := a, ir := word, info := r.info } }

/-- A handler's fault: in its Step context `pc` is the instruction's address plus 2 and `IR` its word
(spec/00_scope.md R11). -/
def State.takeFault (s : State) (r : Raised) : State := s.latch (s.pc - Config.pcStep) (some s.ir) r

/-- What a handler that can raise leaves: its result, or the state it started from with the fault taken (R172). -/
def State.commit (s : State) (result : Except Raised State) : State :=
  match result with
  | .ok t => t
  | .error r => s.takeFault r

/-! ## Memory (spec/20_memory.md R52) -/

/-- The byte at an address, for an address of the space. -/
def State.readByte (s : State) (a : Nat) : Byte := byteAt s.glyphs s.epoch s.mem a

/-- `MemRead(a, 1)`: faults above 0xFFF. -/
def State.memRead (s : State) (a : Nat) : Except Raised Byte :=
  if a < Config.memSize then .ok (s.readByte a) else .error (.memRange a)

/-- `MemWrite(a, 1, b)`: faults above 0xFFF. -/
def State.memWrite (s : State) (a : Nat) (b : Byte) : Except Raised State :=
  if a < Config.memSize then .ok { s with mem := storeByte s.glyphs s.mem a b } else .error (.memRange a)

/-- `n` bytes from ascending addresses, the first fault first (R52). -/
def State.readBytes (s : State) (a : Nat) : Nat → Except Raised (List Byte)
  | 0 => .ok []
  | n + 1 =>
    match s.memRead a with
    | .error r => .error r
    | .ok b =>
      match s.readBytes (a + 1) n with
      | .error r => .error r
      | .ok bs => .ok (b :: bs)

/-- Bytes written to ascending addresses, the first fault first (R52, R53). -/
def State.writeBytes (s : State) (a : Nat) : List Byte → Except Raised State
  | [] => .ok s
  | b :: bs =>
    match s.memWrite a b with
    | .error r => .error r
    | .ok t => t.writeBytes (a + 1) bs

/-- `V[0]` to `V[x]`, in order (spec/44_index_memory.md R144). -/
def State.regsUpTo (s : State) (x : Nibble) : List Byte := s.v.toList.take (x.toNat + 1)

/-- Registers from number `k` upward receive the bytes in order (spec/44_index_memory.md R145). -/
def State.setRegsFrom (s : State) (k : Nat) : List Byte → State
  | [] => s
  | b :: bs => { s with v := s.v.setIfInBounds k b }.setRegsFrom (k + 1) bs

/-! ## The address-stack controller (spec/10_state.md R26; spec/41_control_transfer.md R100, R102) -/

/-- Push: slot `SC` receives the word and `SC` goes up; a full stack faults before any write. -/
def State.push (s : State) (a : Word) : Except Raised State :=
  if h : s.sc.val < Config.stackDepth then
    .ok { s with stk := s.stk.set s.sc.val a h, sc := ⟨s.sc.val + 1, Nat.succ_lt_succ h⟩ }
  else .error .stackOverflow

/-- Pop: `SC` goes down and slot `SC` is the result, kept in place; an empty stack faults. -/
def State.pop (s : State) : Except Raised (Word × State) :=
  match s.sc with
  | ⟨0, _⟩ => .error .stackUnderflow
  | ⟨k + 1, h⟩ => .ok (s.stk[k]'(Nat.lt_of_succ_lt_succ h), { s with sc := ⟨k, Nat.lt_of_succ_lt h⟩ })

/-! ## The display (spec/10_state.md R29; spec/45_display.md R151) -/

/-- `DISP[idx]`. -/
def pixelOf (d : Display) (idx : Nat) : Bool :=
  match d[idx / Config.dispW]? with
  | some row => row.getLsbD (idx % Config.dispW)
  | none => false

/-- `DISP[idx] <- DISP[idx] ^ 1`. -/
def togglePixel (d : Display) (idx : Nat) : Display :=
  match d[idx / Config.dispW]? with
  | some row => d.setIfInBounds (idx / Config.dispW) (row ^^^ (BitVec.ofNat Config.dispW 1 <<< (idx % Config.dispW)))
  | none => d

/-- `DISP[idx]` of a state. -/
def State.pixel (s : State) (idx : Nat) : Bool := pixelOf s.disp idx

/-- The display with every pixel off (spec/45_display.md R150). -/
def clearDisplay : Display := Vector.replicate Config.dispH (BitVec.ofNat Config.dispW 0)

/-- The linear indexes of a sprite row's set bits, most significant bit first, the row's leftmost pixel at `base`. -/
def rowPixels (base : Nat) (row : Byte) : List Nat :=
  ((List.range 8).filter (fun c => row.getLsbD (7 - c))).map (fun c => base + c)

/-- The linear indexes of a sprite's set bits in scan order, its first row on display row `top` and its leftmost column
on `left`: no wrap of a column at 64 (R151). -/
def spritePixels (left top : Nat) : List Byte → List Nat
  | [] => []
  | row :: rows => rowPixels (top * Config.dispW + left) row ++ spritePixels left (top + 1) rows

/-- The scan of R151: each pixel in order is checked against the last cell, noted where it was on, and toggled. -/
def plotPixels : List Nat → Display → Bool → Except Raised (Display × Bool)
  | [], d, hit => .ok (d, hit)
  | idx :: rest, d, hit =>
    if idx < Config.dispPixels then plotPixels rest (togglePixel d idx) (hit || pixelOf d idx)
    else .error (.displayRange idx)

/-! ## Fetch (spec/20_memory.md R51; spec/40_step_cycle.md R91) -/

/-- Both instruction bytes lie in the space. -/
def State.canFetch (s : State) : Bool := decide (s.pc.toNat + 1 < Config.memSize)

/-- The first byte fetched, which is the high one. -/
def State.fetchHigh (s : State) : Byte := s.readByte s.pc.toNat

/-- The second byte fetched, which is the low one. -/
def State.fetchLow (s : State) : Byte := s.readByte (s.pc.toNat + 1)

/-- After the fetch of a word: `IR` holds it and `pc` has advanced by 2. -/
def State.fetched (s : State) (w : Word) : State := { s with ir := w, pc := s.pc + Config.pcStep }

/-- A fetch that cannot be made: `FetchRangeFault(pc)`, with no word recorded (R51, R171). -/
def State.takeFetchFault (s : State) : State := s.latch s.pc none (.fetchRange s.pc.toNat)

/-! ## The end of a Step (spec/40_step_cycle.md R90, R94) -/

/-- A timer's decay: one down, floor zero. -/
def decay (b : Byte) : Byte := if b = 0#8 then 0#8 else b - 1#8

/-- The timer countdown unit (R94). -/
def State.decayTimers (s : State) : State := { s with dt := decay s.dt, st := decay s.st }

/-- The end of the Step that began in `s` and whose handler left `t`: without a fault the timers decay; with one, all of
`s` is kept but for the latch (R90, R172). -/
def State.endStep (s t : State) : State :=
  match t.flt with
  | none => t.decayTimers.nextInput
  | some record => { s with flt := some record }

end Sys2Proof.Machine
end

