-- ==== Sys2Proof/Machine/Operands.lean ====
section
/-! DEFINITION. The operand forms (spec/30_encoding.md R72): zero-extended immediates, the base-plus-offset memory
operand, the masked key number, the wrapped draw origin, the glyph address and the decimal digits. -/

namespace Sys2Proof.Machine

/-- `zext_16` of a 12-bit immediate (R72). -/
def zextAddr (nnn : Addr12) : Word := nnn.setWidth 16

/-- `zext_16` of a register's byte (R72). -/
def zextByte (b : Byte) : Word := b.setWidth 16

/-- The address of byte `k` of a memory operand: `I + k` as an unbounded number (spec/20_memory.md R52). -/
def State.memOperand (s : State) (k : Nat) : Nat := s.i.toNat + k

/-- The jump target of 0xBnnn, `V[0] + nnn` (spec/41_control_transfer.md R103). -/
def State.indexedTarget (s : State) (nnn : Addr12) : Word := zextByte (s.reg 0x0#4) + zextAddr nnn

/-- The key number `V[x] & 0xF` (spec/42_skips.md R114). -/
def State.keyNumber (s : State) (x : Nibble) : Nat := (s.reg x &&& 0x0F#8).toNat

/-- Whether key `V[x] & 0xF` is pressed (spec/42_skips.md R114, R115). -/
def State.keyDown (s : State) (x : Nibble) : Bool := s.key.getLsbD (s.keyNumber x)

/-- The lowest pressed key (spec/46_timers_keys.md R161). -/
def firstKey (key : Word) : Option Nat := (List.range Config.nKeys).find? (fun k => key.getLsbD k)

/-- A sprite's origin column, `V[x] mod 64` (spec/45_display.md R151). -/
def State.originColumn (s : State) (x : Nibble) : Nat := (s.reg x).toNat % Config.dispW

/-- A sprite's origin row, `V[y] mod 32` (spec/45_display.md R151). -/
def State.originRow (s : State) (y : Nibble) : Nat := (s.reg y).toNat % Config.dispH

/-- The glyph address `GLYPH_BASE + 5 * V[x]`, without a mask (spec/44_index_memory.md R142). -/
def glyphAddress (b : Byte) : Word := BitVec.ofNat 16 (Config.glyphBase + Config.glyphStride * b.toNat)

/-- The decimal digits of a byte: hundreds, tens, ones (spec/44_index_memory.md R143). -/
def decimalDigits (b : Byte) : List Byte :=
  [BitVec.ofNat 8 (b.toNat / 100), BitVec.ofNat 8 (b.toNat / 10 % 10), BitVec.ofNat 8 (b.toNat % 10)]

end Sys2Proof.Machine
end

