-- ==== Sys2Proof/Machine/Alu.lean ====
section
/-! DEFINITION. Register loads and the ALU (spec/43_load_alu.md). The statements of each handler run in the written order
and each reads the registers the earlier ones left (spec/00_scope.md R10, log entry 9). -/

namespace Sys2Proof.Machine

/-- Load-imm (R120). -/
def execLdImm (x : Nibble) (kk : Byte) (s : State) : Host.Outcome State Fault Refusal :=
  .next (s.setReg x kk)

/-- Add-imm (R121): no flag. -/
def execAddImm (x : Nibble) (kk : Byte) (s : State) : Host.Outcome State Fault Refusal :=
  .next (s.setReg x (s.reg x + kk))

/-- Move (R122). -/
def execLdReg (x y : Nibble) (s : State) : Host.Outcome State Fault Refusal :=
  .next (s.setReg x (s.reg y))

/-- Or (R123): no flag. -/
def execOrReg (x y : Nibble) (s : State) : Host.Outcome State Fault Refusal :=
  .next (s.setReg x (s.reg x ||| s.reg y))

/-- And (R124): no flag. -/
def execAndReg (x y : Nibble) (s : State) : Host.Outcome State Fault Refusal :=
  .next (s.setReg x (s.reg x &&& s.reg y))

/-- Xor (R125): no flag. -/
def execXorReg (x y : Nibble) (s : State) : Host.Outcome State Fault Refusal :=
  .next (s.setReg x (s.reg x ^^^ s.reg y))

/-- Add (R126): the sum is captured before the carry is written. -/
def execAddReg (x y : Nibble) (s : State) : Host.Outcome State Fault Refusal :=
  .next ((s.setFlag (carryFlag (s.reg x) (s.reg y))).setReg x (s.reg x + s.reg y))

/-- The second statement of Sub, on the registers the flag write left (R127). -/
def State.subInto (s : State) (x y : Nibble) : State := s.setReg x (s.reg x - s.reg y)

/-- Sub (R127). -/
def execSubReg (x y : Nibble) (s : State) : Host.Outcome State Fault Refusal :=
  .next ((s.setFlag (greaterFlag (s.reg x) (s.reg y))).subInto x y)

/-- The second statement of Shift-right, on the registers the flag write left (R128). -/
def State.shiftRightInto (s : State) (x : Nibble) : State := s.setReg x (s.reg x >>> 1)

/-- Shift-right (R128). -/
def execShr (x : Nibble) (s : State) : Host.Outcome State Fault Refusal :=
  .next ((s.setFlag (lowBitFlag (s.reg x))).shiftRightInto x)

/-- The second statement of Subn, on the registers the flag write left (R129). -/
def State.subnInto (s : State) (x y : Nibble) : State := s.setReg x (s.reg y - s.reg x)

/-- Subn (R129). -/
def execSubnReg (x y : Nibble) (s : State) : Host.Outcome State Fault Refusal :=
  .next ((s.setFlag (greaterFlag (s.reg y) (s.reg x))).subnInto x y)

/-- The second statement of Shift-left, on the registers the flag write left (R130). -/
def State.shiftLeftInto (s : State) (x : Nibble) : State := s.setReg x (s.reg x <<< 1)

/-- Shift-left (R130). -/
def execShl (x : Nibble) (s : State) : Host.Outcome State Fault Refusal :=
  .next ((s.setFlag (highBitFlag (s.reg x))).shiftLeftInto x)

/-- Random (R131). -/
def execRnd (x : Nibble) (kk : Byte) (s : State) : Host.Outcome State Fault Refusal :=
  .next (s.setReg x (s.rnd &&& kk))

end Sys2Proof.Machine
end

