-- ==== Sys2Proof/Machine/Control.lean ====
section
/-! DEFINITION. Control transfer, the address-stack controller's two instructions, and the no-op of an unmapped word
(spec/41_control_transfer.md, spec/30_encoding.md R77). `pc` already holds the instruction's address plus 2. -/

namespace Sys2Proof.Machine

/-- Return (R100): pops `pc`; an empty stack faults. -/
def execRet (s : State) : Host.Outcome State Fault Refusal :=
  .next (s.commit (match s.pop with
    | .ok (a, t) => .ok (t.setPc a)
    | .error r => .error r))

/-- Jump (R101). -/
def execJp (nnn : Addr12) (s : State) : Host.Outcome State Fault Refusal :=
  .next (s.setPc (zextAddr nnn))

/-- Call (R102): pushes the advanced `pc`; a full stack faults. -/
def execCall (nnn : Addr12) (s : State) : Host.Outcome State Fault Refusal :=
  .next (s.commit (match s.push s.pc with
    | .ok t => .ok (t.setPc (zextAddr nnn))
    | .error r => .error r))

/-- Jump-indexed (R103). -/
def execJpV0 (nnn : Addr12) (s : State) : Host.Outcome State Fault Refusal :=
  .next (s.setPc (s.indexedTarget nnn))

/-- `UNMAPPED` (R77): no statement. -/
def execUnmapped (s : State) : Host.Outcome State Fault Refusal :=
  .next s

end Sys2Proof.Machine
end

