-- ==== Sys2Proof/Machine/Draw.lean ====
section
/-! DEFINITION. The display instructions (spec/45_display.md). -/

namespace Sys2Proof.Machine

/-- Clear (R150). -/
def execCls (s : State) : Host.Outcome State Fault Refusal :=
  .next (s.setDisp clearDisplay)

/-- The sprite of `n` rows at `I` drawn at an origin: the rows are read first, so that a memory fault outranks a display
fault (spec/60_exceptions.md R176); then the pixels are plotted and VF tells of a collision (R151). -/
def State.drawSprite (s : State) (left top n : Nat) : Except Raised State :=
  match s.readBytes (s.memOperand 0) n with
  | .error r => .error r
  | .ok rows =>
    match plotPixels (spritePixels left top rows) s.disp false with
    | .error r => .error r
    | .ok (d, hit) => .ok ((s.setDisp d).setFlag (flagByte hit))

/-- Draw (R151): the origin is taken from the registers as the instruction finds them (R151 case d). -/
def execDrw (x y n : Nibble) (s : State) : Host.Outcome State Fault Refusal :=
  .next (s.commit (s.drawSprite (s.originColumn x) (s.originRow y) n.toNat))

end Sys2Proof.Machine
end

