-- ==== Sys2Proof/Machine/Index.lean ====
section
/-! DEFINITION. The index register and the memory instructions (spec/44_index_memory.md). A range that crosses 0xFFF
faults and leaves no byte written and no register loaded. -/

namespace Sys2Proof.Machine

/-- Load-index (R140). -/
def execLdI (nnn : Addr12) (s : State) : Host.Outcome State Fault Refusal :=
  .next (s.setI (zextAddr nnn))

/-- Add-index (R141): 16-bit wrap, no flag. -/
def execAddI (x : Nibble) (s : State) : Host.Outcome State Fault Refusal :=
  .next (s.setI (s.i + zextByte (s.reg x)))

/-- Glyph-address (R142). -/
def execLdF (x : Nibble) (s : State) : Host.Outcome State Fault Refusal :=
  .next (s.setI (glyphAddress (s.reg x)))

/-- Store-BCD (R143). -/
def execLdB (x : Nibble) (s : State) : Host.Outcome State Fault Refusal :=
  .next (s.commit (s.writeBytes (s.memOperand 0) (decimalDigits (s.reg x))))

/-- Store-regs (R144). -/
def execStoreRegs (x : Nibble) (s : State) : Host.Outcome State Fault Refusal :=
  .next (s.commit (s.writeBytes (s.memOperand 0) (s.regsUpTo x)))

/-- Load-regs (R145). -/
def execLoadRegs (x : Nibble) (s : State) : Host.Outcome State Fault Refusal :=
  .next (s.commit (match s.readBytes (s.memOperand 0) (x.toNat + 1) with
    | .ok bytes => .ok (s.setRegsFrom 0 bytes)
    | .error r => .error r))

end Sys2Proof.Machine
end

