-- ==== Sys2Proof/Machine/TimersKeys.lean ====
section
/-! DEFINITION. The timer and key instructions (spec/46_timers_keys.md). The decay of the same Step comes after
(spec/40_step_cycle.md R94). -/

namespace Sys2Proof.Machine

/-- Read-delay (R160). -/
def execLdVxDt (x : Nibble) (s : State) : Host.Outcome State Fault Refusal :=
  .next (s.setReg x s.dt)

/-- Wait-key (R161): the lowest pressed key, or `pc` back at this instruction. -/
def execLdVxK (x : Nibble) (s : State) : Host.Outcome State Fault Refusal :=
  .next (match firstKey s.key with
    | some k => s.setReg x (BitVec.ofNat 8 k)
    | none => s.setPc (s.pc - Config.pcStep))

/-- Write-delay (R162). -/
def execLdDtVx (x : Nibble) (s : State) : Host.Outcome State Fault Refusal :=
  .next (s.setDt (s.reg x))

/-- Write-sound (R163). -/
def execLdStVx (x : Nibble) (s : State) : Host.Outcome State Fault Refusal :=
  .next (s.setSt (s.reg x))

end Sys2Proof.Machine
end

