-- ==== Sys2Proof/Syntax.lean ====
section
/-! DEFINITION. The instructions: one constructor per row of spec/opcode_table.json, with the operand fields that row
names (spec/30_encoding.md R71, R72, R75). -/

namespace Sys2Proof

/-- The 34 instructions and the no-op for every word without a handler (R75, R77). -/
inductive Instr where
  /-- 0x00E0 Clear (R150). -/
  | cls
  /-- 0x00EE Return (R100). -/
  | ret
  /-- 0x1nnn Jump (R101). -/
  | jp (nnn : Addr12)
  /-- 0x2nnn Call (R102). -/
  | call (nnn : Addr12)
  /-- 0x3xkk Skip-if-eq-imm (R110). -/
  | seImm (x : Nibble) (kk : Byte)
  /-- 0x4xkk Skip-if-ne-imm (R111). -/
  | sneImm (x : Nibble) (kk : Byte)
  /-- 0x5xy0 Skip-if-eq-reg (R112). -/
  | seReg (x y : Nibble)
  /-- 0x6xkk Load-imm (R120). -/
  | ldImm (x : Nibble) (kk : Byte)
  /-- 0x7xkk Add-imm (R121). -/
  | addImm (x : Nibble) (kk : Byte)
  /-- 0x8xy0 Move (R122). -/
  | ldReg (x y : Nibble)
  /-- 0x8xy1 Or (R123). -/
  | orReg (x y : Nibble)
  /-- 0x8xy2 And (R124). -/
  | andReg (x y : Nibble)
  /-- 0x8xy3 Xor (R125). -/
  | xorReg (x y : Nibble)
  /-- 0x8xy4 Add (R126). -/
  | addReg (x y : Nibble)
  /-- 0x8xy5 Sub (R127). -/
  | subReg (x y : Nibble)
  /-- 0x8xy6 Shift-right (R128); the handler ignores `y`. -/
  | shr (x y : Nibble)
  /-- 0x8xy7 Subn (R129). -/
  | subnReg (x y : Nibble)
  /-- 0x8xyE Shift-left (R130); the handler ignores `y`. -/
  | shl (x y : Nibble)
  /-- 0x9xy0 Skip-if-ne-reg (R113). -/
  | sneReg (x y : Nibble)
  /-- 0xAnnn Load-index (R140). -/
  | ldI (nnn : Addr12)
  /-- 0xBnnn Jump-indexed (R103). -/
  | jpV0 (nnn : Addr12)
  /-- 0xCxkk Random (R131). -/
  | rnd (x : Nibble) (kk : Byte)
  /-- 0xDxyn Draw (R151). -/
  | drw (x y n : Nibble)
  /-- 0xEx9E Skip-if-key-down (R114). -/
  | skp (x : Nibble)
  /-- 0xExA1 Skip-if-key-up (R115). -/
  | sknp (x : Nibble)
  /-- 0xFx07 Read-delay (R160). -/
  | ldVxDt (x : Nibble)
  /-- 0xFx0A Wait-key (R161). -/
  | ldVxK (x : Nibble)
  /-- 0xFx15 Write-delay (R162). -/
  | ldDtVx (x : Nibble)
  /-- 0xFx18 Write-sound (R163). -/
  | ldStVx (x : Nibble)
  /-- 0xFx1E Add-index (R141). -/
  | addI (x : Nibble)
  /-- 0xFx29 Glyph-address (R142). -/
  | ldF (x : Nibble)
  /-- 0xFx33 Store-BCD (R143). -/
  | ldB (x : Nibble)
  /-- 0xFx55 Store-regs (R144). -/
  | storeRegs (x : Nibble)
  /-- 0xFx65 Load-regs (R145). -/
  | loadRegs (x : Nibble)
  /-- `UNMAPPED`: a word that selects no handler, kept whole (R77). -/
  | unmapped (w : Word)
  deriving DecidableEq, Repr

end Sys2Proof
end

