-- ==== Sys2Proof/WellFormed.lean ====
section
/-! DEFINITION. Which instructions are well formed. Every operand field of every instruction is legal at every value
(spec/30_encoding.md R72), so the one check is on `unmapped`: it stands for a word that has no handler (R77). -/

namespace Sys2Proof

/-- The unmapped space, family by family, as spec/30_encoding.md R78 enumerates it. -/
def unmappedWord (w : Word) : Bool :=
  ((w &&& 0xF000#16 == 0x0000#16) && !(w &&& 0x000F#16 == 0x0#16) && !(w &&& 0x000F#16 == 0xE#16)) ||
  ((w &&& 0xF000#16 == 0x8000#16) &&
    [0x8#16, 0x9#16, 0xA#16, 0xB#16, 0xC#16, 0xD#16, 0xF#16].contains (w &&& 0x000F#16)) ||
  ((w &&& 0xF000#16 == 0xE000#16) && !(w &&& 0x000F#16 == 0x1#16) && !(w &&& 0x000F#16 == 0xE#16)) ||
  ((w &&& 0xF000#16 == 0xF000#16) &&
    !([0x07#16, 0x0A#16, 0x15#16, 0x18#16, 0x1E#16, 0x29#16, 0x33#16, 0x55#16, 0x65#16].contains
      (w &&& 0x00FF#16)))

/-- The well-formedness check (R72, R77, R78). -/
def Instr.wf : Instr → Bool
  | .cls => true
  | .ret => true
  | .jp _ => true
  | .call _ => true
  | .seImm _ _ => true
  | .sneImm _ _ => true
  | .seReg _ _ => true
  | .ldImm _ _ => true
  | .addImm _ _ => true
  | .ldReg _ _ => true
  | .orReg _ _ => true
  | .andReg _ _ => true
  | .xorReg _ _ => true
  | .addReg _ _ => true
  | .subReg _ _ => true
  | .shr _ _ => true
  | .subnReg _ _ => true
  | .shl _ _ => true
  | .sneReg _ _ => true
  | .ldI _ => true
  | .jpV0 _ => true
  | .rnd _ _ => true
  | .drw _ _ _ => true
  | .skp _ => true
  | .sknp _ => true
  | .ldVxDt _ => true
  | .ldVxK _ => true
  | .ldDtVx _ => true
  | .ldStVx _ => true
  | .addI _ => true
  | .ldF _ => true
  | .ldB _ => true
  | .storeRegs _ => true
  | .loadRegs _ => true
  | .unmapped w => unmappedWord w

/-- An instruction is well formed when the check passes. -/
abbrev Instr.WellFormed (i : Instr) : Prop := i.wf = true

end Sys2Proof
end

