-- ==== Sys2Proof/Decode.lean ====
section
/-! DEFINITION. The decoder (spec/30_encoding.md R73, R76), total on words; the encoder, which emits the canonical
pattern (R75, R81); the opcode table's rows (R74, R75); and the two on bytes, big-endian (spec/20_memory.md R51). -/

namespace Sys2Proof

/-! ## Fields (spec/00_scope.md R8) -/

/-- `p` = `IR[15:12]`, the primary key. -/
def fieldP (w : Word) : Nibble := w.extractLsb' 12 4

/-- `x` = `IR[11:8]`. -/
def fieldX (w : Word) : Nibble := w.extractLsb' 8 4

/-- `y` = `IR[7:4]`. -/
def fieldY (w : Word) : Nibble := w.extractLsb' 4 4

/-- `n` = `IR[3:0]`, also the secondary key of the families 0x0, 0x8 and 0xE. -/
def fieldN (w : Word) : Nibble := w.extractLsb' 0 4

/-- `kk` = `IR[7:0]`, also the secondary key of the family 0xF. -/
def fieldKk (w : Word) : Byte := w.extractLsb' 0 8

/-- `nnn` = `IR[11:0]`. -/
def fieldNnn (w : Word) : Addr12 := w.extractLsb' 0 12

/-! ## The decoder -/

/-- Family 0x0, keyed on `IR[3:0]` (R76). -/
def decodeFamily0 (w : Word) : Instr :=
  match (fieldN w).toNat with
  | 0x0 => .cls
  | 0xE => .ret
  | _ => .unmapped w

/-- Family 0x8, keyed on `IR[3:0]` (R76). -/
def decodeFamily8 (w : Word) : Instr :=
  match (fieldN w).toNat with
  | 0x0 => .ldReg (fieldX w) (fieldY w)
  | 0x1 => .orReg (fieldX w) (fieldY w)
  | 0x2 => .andReg (fieldX w) (fieldY w)
  | 0x3 => .xorReg (fieldX w) (fieldY w)
  | 0x4 => .addReg (fieldX w) (fieldY w)
  | 0x5 => .subReg (fieldX w) (fieldY w)
  | 0x6 => .shr (fieldX w) (fieldY w)
  | 0x7 => .subnReg (fieldX w) (fieldY w)
  | 0xE => .shl (fieldX w) (fieldY w)
  | _ => .unmapped w

/-- Family 0xE, keyed on `IR[3:0]` (R76). -/
def decodeFamilyE (w : Word) : Instr :=
  match (fieldN w).toNat with
  | 0x1 => .sknp (fieldX w)
  | 0xE => .skp (fieldX w)
  | _ => .unmapped w

/-- Family 0xF, keyed on `IR[7:0]` (R76). -/
def decodeFamilyF (w : Word) : Instr :=
  match (fieldKk w).toNat with
  | 0x07 => .ldVxDt (fieldX w)
  | 0x0A => .ldVxK (fieldX w)
  | 0x15 => .ldDtVx (fieldX w)
  | 0x18 => .ldStVx (fieldX w)
  | 0x1E => .addI (fieldX w)
  | 0x29 => .ldF (fieldX w)
  | 0x33 => .ldB (fieldX w)
  | 0x55 => .storeRegs (fieldX w)
  | 0x65 => .loadRegs (fieldX w)
  | _ => .unmapped w

/-- The dispatch of R73: on the primary key, then in the four families on the secondary key. -/
def decode (w : Word) : Instr :=
  match (fieldP w).toNat with
  | 0x0 => decodeFamily0 w
  | 0x1 => .jp (fieldNnn w)
  | 0x2 => .call (fieldNnn w)
  | 0x3 => .seImm (fieldX w) (fieldKk w)
  | 0x4 => .sneImm (fieldX w) (fieldKk w)
  | 0x5 => .seReg (fieldX w) (fieldY w)
  | 0x6 => .ldImm (fieldX w) (fieldKk w)
  | 0x7 => .addImm (fieldX w) (fieldKk w)
  | 0x8 => decodeFamily8 w
  | 0x9 => .sneReg (fieldX w) (fieldY w)
  | 0xA => .ldI (fieldNnn w)
  | 0xB => .jpV0 (fieldNnn w)
  | 0xC => .rnd (fieldX w) (fieldKk w)
  | 0xD => .drw (fieldX w) (fieldY w) (fieldN w)
  | 0xE => decodeFamilyE w
  | _ => decodeFamilyF w

/-- The big-endian word of two bytes, the byte at the lower address high (spec/20_memory.md R51). -/
def wordOfBytes (hi lo : Byte) : Word := hi ++ lo

/-- Why a byte sequence is no instruction. The decoder refuses no word (R73), only too few bytes (R70). -/
inductive DecodeError where
  /-- Fewer than the two bytes of an instruction word are given. Safe: a step always fetches two bytes. -/
  | truncated
  deriving DecidableEq, Repr

/-- The first instruction of a byte sequence and the bytes after it (R70). -/
def decodeBytes : List Byte → Except DecodeError (Instr × List Byte)
  | hi :: lo :: rest => .ok (decode (wordOfBytes hi lo), rest)
  | [_] => .error .truncated
  | [] => .error .truncated

/-! ## The encoder -/

/-- A word of format XYS, XYN, XSS or SYS: four nibbles (R71). -/
def assemble (p x y n : Nibble) : Word := p ++ x ++ y ++ n

/-- A word of format XKK (R71), and of format XSS with its 8-bit secondary key. -/
def assembleKk (p x : Nibble) (kk : Byte) : Word := p ++ x ++ kk

/-- A word of format NNN (R71). -/
def assembleNnn (p : Nibble) (nnn : Addr12) : Word := p ++ nnn

/-- The canonical word of an instruction (R75, R81; log entry 7). -/
def encode : Instr → Word
  | .cls => assemble 0x0#4 0x0#4 0xE#4 0x0#4
  | .ret => assemble 0x0#4 0x0#4 0xE#4 0xE#4
  | .jp nnn => assembleNnn 0x1#4 nnn
  | .call nnn => assembleNnn 0x2#4 nnn
  | .seImm x kk => assembleKk 0x3#4 x kk
  | .sneImm x kk => assembleKk 0x4#4 x kk
  | .seReg x y => assemble 0x5#4 x y 0x0#4
  | .ldImm x kk => assembleKk 0x6#4 x kk
  | .addImm x kk => assembleKk 0x7#4 x kk
  | .ldReg x y => assemble 0x8#4 x y 0x0#4
  | .orReg x y => assemble 0x8#4 x y 0x1#4
  | .andReg x y => assemble 0x8#4 x y 0x2#4
  | .xorReg x y => assemble 0x8#4 x y 0x3#4
  | .addReg x y => assemble 0x8#4 x y 0x4#4
  | .subReg x y => assemble 0x8#4 x y 0x5#4
  | .shr x y => assemble 0x8#4 x y 0x6#4
  | .subnReg x y => assemble 0x8#4 x y 0x7#4
  | .shl x y => assemble 0x8#4 x y 0xE#4
  | .sneReg x y => assemble 0x9#4 x y 0x0#4
  | .ldI nnn => assembleNnn 0xA#4 nnn
  | .jpV0 nnn => assembleNnn 0xB#4 nnn
  | .rnd x kk => assembleKk 0xC#4 x kk
  | .drw x y n => assemble 0xD#4 x y n
  | .skp x => assembleKk 0xE#4 x 0x9E#8
  | .sknp x => assembleKk 0xE#4 x 0xA1#8
  | .ldVxDt x => assembleKk 0xF#4 x 0x07#8
  | .ldVxK x => assembleKk 0xF#4 x 0x0A#8
  | .ldDtVx x => assembleKk 0xF#4 x 0x15#8
  | .ldStVx x => assembleKk 0xF#4 x 0x18#8
  | .addI x => assembleKk 0xF#4 x 0x1E#8
  | .ldF x => assembleKk 0xF#4 x 0x29#8
  | .ldB x => assembleKk 0xF#4 x 0x33#8
  | .storeRegs x => assembleKk 0xF#4 x 0x55#8
  | .loadRegs x => assembleKk 0xF#4 x 0x65#8
  | .unmapped w => w

/-- The high byte of a word, stored at the lower address (spec/20_memory.md R51). -/
def highByte (w : Word) : Byte := w.extractLsb' 8 8

/-- The low byte of a word, stored at the higher address (spec/20_memory.md R51). -/
def lowByte (w : Word) : Byte := w.extractLsb' 0 8

/-- The two bytes of an instruction in address order. -/
def encodeBytes (i : Instr) : List Byte := [highByte (encode i), lowByte (encode i)]

/-! ## The opcode table (R74, R75) -/

/-- One row of the opcode table: the bits the decoder matches, and the instruction built from a matching word. -/
structure OpcodeRow where
  mask : Word
  pattern : Word
  build : Word → Instr

/-- The decoder's match of a row against a word (R74). -/
def OpcodeRow.hits (r : OpcodeRow) (w : Word) : Bool := w &&& r.mask == r.pattern

/-- The rows with the primary keys 0x0 to 0x7. -/
def opcodeRowsLow : List OpcodeRow :=
  [⟨0xF00F#16, 0x0000#16, fun _ => .cls⟩,
   ⟨0xF00F#16, 0x000E#16, fun _ => .ret⟩,
   ⟨0xF000#16, 0x1000#16, fun w => .jp (fieldNnn w)⟩,
   ⟨0xF000#16, 0x2000#16, fun w => .call (fieldNnn w)⟩,
   ⟨0xF000#16, 0x3000#16, fun w => .seImm (fieldX w) (fieldKk w)⟩,
   ⟨0xF000#16, 0x4000#16, fun w => .sneImm (fieldX w) (fieldKk w)⟩,
   ⟨0xF000#16, 0x5000#16, fun w => .seReg (fieldX w) (fieldY w)⟩,
   ⟨0xF000#16, 0x6000#16, fun w => .ldImm (fieldX w) (fieldKk w)⟩,
   ⟨0xF000#16, 0x7000#16, fun w => .addImm (fieldX w) (fieldKk w)⟩]

/-- The rows of the family 0x8. -/
def opcodeRows8 : List OpcodeRow :=
  [⟨0xF00F#16, 0x8000#16, fun w => .ldReg (fieldX w) (fieldY w)⟩,
   ⟨0xF00F#16, 0x8001#16, fun w => .orReg (fieldX w) (fieldY w)⟩,
   ⟨0xF00F#16, 0x8002#16, fun w => .andReg (fieldX w) (fieldY w)⟩,
   ⟨0xF00F#16, 0x8003#16, fun w => .xorReg (fieldX w) (fieldY w)⟩,
   ⟨0xF00F#16, 0x8004#16, fun w => .addReg (fieldX w) (fieldY w)⟩,
   ⟨0xF00F#16, 0x8005#16, fun w => .subReg (fieldX w) (fieldY w)⟩,
   ⟨0xF00F#16, 0x8006#16, fun w => .shr (fieldX w) (fieldY w)⟩,
   ⟨0xF00F#16, 0x8007#16, fun w => .subnReg (fieldX w) (fieldY w)⟩,
   ⟨0xF00F#16, 0x800E#16, fun w => .shl (fieldX w) (fieldY w)⟩]

/-- The rows with the primary keys 0x9 to 0xE. -/
def opcodeRowsHigh : List OpcodeRow :=
  [⟨0xF000#16, 0x9000#16, fun w => .sneReg (fieldX w) (fieldY w)⟩,
   ⟨0xF000#16, 0xA000#16, fun w => .ldI (fieldNnn w)⟩,
   ⟨0xF000#16, 0xB000#16, fun w => .jpV0 (fieldNnn w)⟩,
   ⟨0xF000#16, 0xC000#16, fun w => .rnd (fieldX w) (fieldKk w)⟩,
   ⟨0xF000#16, 0xD000#16, fun w => .drw (fieldX w) (fieldY w) (fieldN w)⟩,
   ⟨0xF00F#16, 0xE00E#16, fun w => .skp (fieldX w)⟩,
   ⟨0xF00F#16, 0xE001#16, fun w => .sknp (fieldX w)⟩]

/-- The rows of the family 0xF. -/
def opcodeRowsF : List OpcodeRow :=
  [⟨0xF0FF#16, 0xF007#16, fun w => .ldVxDt (fieldX w)⟩,
   ⟨0xF0FF#16, 0xF00A#16, fun w => .ldVxK (fieldX w)⟩,
   ⟨0xF0FF#16, 0xF015#16, fun w => .ldDtVx (fieldX w)⟩,
   ⟨0xF0FF#16, 0xF018#16, fun w => .ldStVx (fieldX w)⟩,
   ⟨0xF0FF#16, 0xF01E#16, fun w => .addI (fieldX w)⟩,
   ⟨0xF0FF#16, 0xF029#16, fun w => .ldF (fieldX w)⟩,
   ⟨0xF0FF#16, 0xF033#16, fun w => .ldB (fieldX w)⟩,
   ⟨0xF0FF#16, 0xF055#16, fun w => .storeRegs (fieldX w)⟩,
   ⟨0xF0FF#16, 0xF065#16, fun w => .loadRegs (fieldX w)⟩]

/-- The 34 instruction rows of the opcode table. -/
def opcodeRows : List OpcodeRow := opcodeRowsLow ++ opcodeRows8 ++ opcodeRowsHigh ++ opcodeRowsF

/-- Decoding by the opcode table: the first row that matches, and the no-op where none does (R74, R77). -/
def decodeByTable (w : Word) : Instr :=
  match opcodeRows.find? (fun r => r.hits w) with
  | some r => r.build w
  | none => .unmapped w

/-! ## The host's view -/

/-- The instruction read from a table word: the word's two bytes, high byte first, given to the decoder; bits from
`nbits` up are 0, and a word wider than the machine's 16 bits is refused (R70). -/
def decodeTableWord (nbits w : Nat) : Option Instr :=
  if nbits ≤ 16 then
    let word : Word := BitVec.ofNat 16 (w % 2 ^ nbits)
    match decodeBytes [highByte word, lowByte word] with
    | .ok (i, _) => some i
    | .error _ => none
  else none

end Sys2Proof
end

