-- ==== Sys2Proof/Machine/Fetch.lean ====
section
/-! DEFINITION. The word a Step fetches (spec/20_memory.md R51) and the placing of a word where the next Step fetches. -/

namespace Sys2Proof.Machine

/-- `FetchRead(pc)`: the big-endian word at `pc` (R51). -/
def State.fetchWord (s : State) : Word := wordOfBytes s.fetchHigh s.fetchLow

/-- The instruction a Step decodes (spec/40_step_cycle.md R92). -/
def State.nextInstr (s : State) : Instr := decode s.fetchWord

/-- A state whose next Step fetches: not halted, and with `pc` at `PROG_BASE` where no word can be fetched at `pc`
(log entry 8). -/
def State.readyToFetch (s : State) : State :=
  { s with flt := none, pc := if s.canFetch then s.pc else BitVec.ofNat 16 Config.progBase }

/-- A word stored big-endian at `pc`. -/
def State.storeWordAtPc (s : State) (w : Word) : State :=
  { s with mem := storeByte s.glyphs (storeByte s.glyphs s.mem s.pc.toNat (highByte w)) (s.pc.toNat + 1) (lowByte w) }

/-- A table word placed where the next Step fetches (log entry 8). -/
def State.placeFetchWord (s : State) (nbits w : Nat) : State :=
  s.readyToFetch.storeWordAtPc (BitVec.ofNat 16 (w % 2 ^ nbits))

end Sys2Proof.Machine
end

