-- ==== Sys2Proof/Machine/Step.lean ====
section
/-! DEFINITION. `Step` (spec/40_step_cycle.md R90). -/

namespace Sys2Proof.Machine

/-- The Step's end around the outcome of its handler. -/
def State.finish (s : State) (outcome : Host.Outcome State Fault Refusal) : Host.Outcome State Fault Refusal :=
  match outcome with
  | .next t => .next (s.endStep t)
  | .fault r => .fault r
  | .refused r => .refused r

/-- One Step (R90): nothing when a fault is latched (R173); otherwise fetch, decode, execute and the timer decay. -/
def step (s : State) : Host.Outcome State Fault Refusal :=
  match s.flt with
  | some _ => .next s
  | none =>
    if s.canFetch then s.finish (exec s.nextInstr (s.fetched s.fetchWord))
    else .next s.takeFetchFault

/-- The state whose next Step fetches and runs the word (log entry 8). -/
def State.withFetchWord (s : State) (nbits w : Nat) : State := s.placeFetchWord nbits w

end Sys2Proof.Machine
end

