-- ==== Sys2Proof/Machine/Environment.lean ====
section
/-! DEFINITION. What the outside world does between Steps and sees of the machine (spec/10_state.md R36 to R41,
spec/70_reset_and_hazards.md R190, R191): a later Reset, the loader, the input sources, and the outputs. -/

namespace Sys2Proof.Machine

/-- A later Reset (R190, R191): every field as after the first, memory unspecified anew, the fault latch cleared
(spec/60_exceptions.md R177). The machine's glyph table is copied in again (R190); the inputs are not the machine's and go
on (R35). -/
def State.reinit (s : State) : State :=
  { State.resetWith s.glyphs with epoch := s.epoch + 1, inputs := s.inputs, tick := s.tick }

/-- One byte written by the loader between Steps: only 0x200 to 0xFFF (R38, R41). -/
def State.loaderWrite (s : State) (a : Nat) (b : Byte) : Option State :=
  if Config.progBase ≤ a ∧ a < Config.memSize then some { s with mem := storeByte s.glyphs s.mem a b } else none

/-- The loader's copy of a program image to 0x200 upward; a longer image than 3584 bytes is refused (R38). -/
def State.load (s : State) (image : List Byte) : Option State :=
  if Config.progBase + image.length ≤ Config.memSize then
    some { s with mem := storeBytes s.glyphs s.mem Config.progBase image }
  else none

/-- The key source and the random source fix the inputs of the coming Steps (R36, R37). -/
def State.supply (s : State) (samples : List StepInput) : State := { s with inputs := samples }

/-- `sound_active`: the output the audio consumer observes (R40). -/
def State.soundActive (s : State) : Bool := !(s.st == 0#8)

/-- `fault`: the output that shows the latch (spec/60_exceptions.md R172). -/
def State.faultOutput (s : State) : Option FltRecord := s.flt

/-- The pixel at a column and a row, as the display consumer reads it (R29, R39). -/
def State.pixelAt (s : State) (column row : Nat) : Bool := s.pixel (row * Config.dispW + column)

end Sys2Proof.Machine
end

