-- ==== Sys2Proof/Safety.lean ====
section
/-! DEFINITION. The terms claims are stated in: what a transition leaves unchanged, what a Step runs, which pixels a
sprite covers, and the invariant of the machine. -/

namespace Sys2Proof.Machine

/-! ## Frames: every field that is not named keeps its value -/

/-- At most the general registers differ. -/
def OnlyRegsChange (s t : State) : Prop := t = { s with v := t.v }

/-- At most `pc` differs. -/
def OnlyPcChanges (s t : State) : Prop := t = { s with pc := t.pc }

/-- At most `I` differs. -/
def OnlyIChanges (s t : State) : Prop := t = { s with i := t.i }

/-- At most memory differs. -/
def OnlyMemChanges (s t : State) : Prop := t = { s with mem := t.mem }

/-- At most the display differs. -/
def OnlyDisplayChanges (s t : State) : Prop := t = { s with disp := t.disp }

/-- At most the display and the general registers differ. -/
def OnlyDisplayAndRegsChange (s t : State) : Prop := t = { s with disp := t.disp, v := t.v }

/-- At most the stack, its count and `pc` differ. -/
def OnlyStackAndPcChange (s t : State) : Prop := t = { s with stk := t.stk, sc := t.sc, pc := t.pc }

/-- At most `DT` differs. -/
def OnlyDtChanges (s t : State) : Prop := t = { s with dt := t.dt }

/-- At most `ST` differs. -/
def OnlyStChanges (s t : State) : Prop := t = { s with st := t.st }

/-- At most the model's own input fields differ. -/
def OnlyInputsDiffer (s t : State) : Prop := t = { s with inputs := t.inputs, tick := t.tick }

/-- A handler that faulted: the latch holds the record of R171 (the instruction's address is `pc` minus 2, its word is
`IR`), `pc` is at the instruction again, and nothing else changed (spec/60_exceptions.md R172). -/
def FaultTaken (s t : State) (cause : FltCause) (info : Option Nat) : Prop :=
  t = { s with pc := s.pc - 2#16, flt := some ⟨cause, s.pc - 2#16, some s.ir, info⟩ }

/-! ## What a Step runs -/

/-- The Step that begins in `s` runs the instruction `i`: no fault is latched, both bytes at `pc` lie in the space, and
they decode to `i` (spec/40_step_cycle.md R90 to R92). -/
def State.Runs (s : State) (i : Instr) : Prop := s.flt = none ∧ s.pc.toNat + 1 ≤ 0xFFF ∧ decode s.fetchWord = i

/-! ## Sprites (spec/45_display.md R151) -/

/-- Bit (row `r`, column `c`) of the `n`-row sprite at `I` is set; column 0 is the most significant bit. -/
def State.SpriteBit (s : State) (n : Nibble) (r c : Nat) : Prop :=
  r < n.toNat ∧ c < 8 ∧ (s.readByte (s.i.toNat + r)).getLsbD (7 - c) = true

/-- The linear index of the sprite's pixel (row `r`, column `c`) drawn at `V[x]`, `V[y]`. -/
def State.spriteIndex (s : State) (x y : Nibble) (r c : Nat) : Nat :=
  ((s.reg y).toNat % 32 + r) * 64 + ((s.reg x).toNat % 64 + c)

/-- A set bit of the sprite falls on the pixel. -/
def State.Covers (s : State) (x y n : Nibble) (idx : Nat) : Prop :=
  ∃ r c, s.SpriteBit n r c ∧ idx = s.spriteIndex x y r c

/-! ## The invariant -/

/-- The record in the latch says what stopped the machine, in the state it stopped in: the address is `pc`, the condition
of its cause holds, and word and info are there exactly where R171 gives them. -/
def FltRecord.fits (f : FltRecord) (s : State) : Bool :=
  (f.pc == s.pc) &&
  match f.cause with
  | .fetchRange => (f.ir == none) && (f.info == some s.pc.toNat) && decide (0xFFF ≤ s.pc.toNat)
  | .memRange => f.ir.isSome && (f.info == some (max s.i.toNat 0x1000))
  | .displayRange => f.ir.isSome && (match f.info with
      | some idx => decide (2048 ≤ idx) && decide (idx ≤ 2950)
      | none => false)
  | .stackOverflow => f.ir.isSome && (f.info == none) && (s.sc == 16)
  | .stackUnderflow => f.ir.isSome && (f.info == none) && (s.sc == 0)

/-- The latch is empty or holds a fitting record. -/
def State.latchFits (s : State) : Bool :=
  match s.flt with
  | none => true
  | some f => f.fits s

/-- Every valid stack entry is the address after a fetched instruction (spec/41_control_transfer.md R100). -/
abbrev State.StackHoldsReturnAddresses (s : State) : Prop :=
  ∀ k : Fin 16, k.val < s.sc.val → 2 ≤ (s.stk[k.val]).toNat ∧ (s.stk[k.val]).toNat ≤ 0x1000

/-- The invariant: memory is in its canonical form, `pc` is at most 0x10FE (the largest target of 0xBnnn, R103), every
valid stack entry is a return address, and the latch fits the state. -/
abbrev State.Inv (s : State) : Prop :=
  s.mem.wf s.glyphs = true ∧ s.pc.toNat ≤ 0x10FE ∧ s.StackHoldsReturnAddresses ∧ s.latchFits = true

end Sys2Proof.Machine
end

