-- ==== Sys2Proof/Certificates/Slice0/Obligations.lean ====
section
/-! DEFINITION. The statements for the provers, from the numbered rules of spec/. Each docstring cites what it formalises;
`D<n>` names a decision the spec itself marks as its own (spec/92_eei_decisions.md). -/

open Sys2Proof Sys2Proof.Machine

/-! ## Encoding -/

/-- The operand fields are the bits spec/00_scope.md R8 names, as unsigned numbers. -/
def Obligations.FieldsAreTheNamedBits : Prop :=
  ∀ w : Word,
    (fieldP w).toNat = w.toNat / 4096 ∧ (fieldX w).toNat = w.toNat / 256 % 16 ∧
    (fieldY w).toNat = w.toNat / 16 % 16 ∧ (fieldN w).toNat = w.toNat % 16 ∧
    (fieldKk w).toNat = w.toNat % 256 ∧ (fieldNnn w).toNat = w.toNat % 4096

/-- Words written out in the spec's examples decode to the instructions they stand for. -/
def Obligations.SpecWordsDecode : Prop :=
  decode 0x6005#16 = .ldImm 0x0#4 0x05#8 ∧ decode 0x7003#16 = .addImm 0x0#4 0x03#8 ∧
  decode 0x2204#16 = .call 0x204#12 ∧ decode 0x00EE#16 = .ret ∧ decode 0xD005#16 = .drw 0x0#4 0x0#4 0x5#4 ∧
  decode 0xA050#16 = .ldI 0x050#12 ∧ decode 0xF033#16 = .ldB 0x0#4 ∧ decode 0x8124#16 = .addReg 0x1#4 0x2#4 ∧
  decode 0xE29E#16 = .skp 0x2#4 ∧ decode 0x8128#16 = .unmapped 0x8128#16

/-- Decoding the encoding of a well-formed instruction gives it back, with every operand at every value. -/
def Obligations.DecodeEncodeRoundTrip : Prop :=
  ∀ i : Instr, i.WellFormed → decode (encode i) = i

/-- The decoder gives only well-formed instructions, and `UNMAPPED` exactly on the words R78 enumerates, each kept whole. -/
def Obligations.UnmappedSpaceIsExact : Prop :=
  ∀ w : Word, (decode w).WellFormed ∧ (unmappedWord w = true ↔ decode w = .unmapped w) ∧
    ∀ u, decode w = .unmapped u → u = w

/-- The dispatch of R73 and the mask-and-match column of the opcode table (R74, R75) are the same decoder. -/
def Obligations.DispatchAgreesWithOpcodeTable : Prop :=
  ∀ w : Word, decode w = decodeByTable w

/-- Every word matches at most one row of the opcode table, and one exactly when it is not `UNMAPPED`. -/
def Obligations.AtMostOneRowMatches : Prop :=
  ∀ w : Word, (opcodeRows.countP (fun r => r.hits w) ≤ 1) ∧
    (opcodeRows.countP (fun r => r.hits w) = 1 ↔ decode w ≠ .unmapped w)

/-- Two words that agree in the bits the dispatch reads and in the fields the selected handler names decode alike: the
alias rows of R74, and the `y` that the shifts ignore. -/
def Obligations.AliasWordsDecodeAlike : Prop :=
  (∀ w : Word, w &&& 0xF00F#16 = 0x0000#16 → decode w = .cls) ∧
  (∀ w : Word, w &&& 0xF00F#16 = 0x000E#16 → decode w = .ret) ∧
  (∀ w u : Word, w &&& 0xF000#16 = 0x5000#16 → w &&& 0xFFF0#16 = u &&& 0xFFF0#16 → decode w = decode u) ∧
  (∀ w u : Word, w &&& 0xF000#16 = 0x9000#16 → w &&& 0xFFF0#16 = u &&& 0xFFF0#16 → decode w = decode u) ∧
  (∀ w u : Word, w &&& 0xF000#16 = 0xE000#16 → decode w ≠ .unmapped w → w &&& 0xFF0F#16 = u &&& 0xFF0F#16 →
    decode w = decode u) ∧
  (∀ x y z s, exec (.shr x y) s = exec (.shr x z) s) ∧ (∀ x y z s, exec (.shl x y) s = exec (.shl x z) s)

/-! ## The Step -/

/-- The fetched word is the two bytes at `pc`, the byte at the lower address high (R51). -/
def Obligations.FetchIsBigEndian : Prop :=
  ∀ s : State, s.fetchWord.toNat = 256 * (s.readByte s.pc.toNat).toNat + (s.readByte (s.pc.toNat + 1)).toNat

/-- A Step runs the decoded instruction: where the bytes at `pc` decode to `i`, the Step is `exec i` on the state with
`IR` and the advanced `pc`, followed by the timers' decay and the next input when no fault was taken, and otherwise the
state it began from with the latch set (the fault clause is the spec's decision D7). -/
def Obligations.StepRunsDecodedInstruction : Prop :=
  ∀ (s : State) (i : Instr) (rest : List Byte), s.flt = none → s.pc.toNat + 1 ≤ 0xFFF →
    decodeBytes (s.readByte s.pc.toNat :: s.readByte (s.pc.toNat + 1) :: rest) = .ok (i, rest) →
    i.WellFormed ∧
    ∃ t, exec i { s with ir := s.fetchWord, pc := s.pc + 2#16 } = .next t ∧
      (t.flt = none →
        step s = .next { t with
          dt := if t.dt = 0#8 then 0#8 else t.dt - 1#8
          st := if t.st = 0#8 then 0#8 else t.st - 1#8
          inputs := t.inputs.tail
          tick := t.tick + 1 }) ∧
      (∀ f, t.flt = some f → step s = .next { s with flt := some f })

/-- A machine with a latched fault is stopped: a Step changes nothing (R173, the spec's decision D7). -/
def Obligations.HaltedStepChangesNothing : Prop :=
  ∀ s : State, s.flt ≠ none → step s = .next s

/-- A fetch with a byte above 0xFFF only latches FetchRangeFault, with no word and with `pc` as the info (R51, R171, the
spec's decisions D4 and D7). -/
def Obligations.FetchAboveMemoryFaults : Prop :=
  ∀ s : State, s.flt = none → 0xFFF ≤ s.pc.toNat →
    step s = .next { s with flt := some ⟨.fetchRange, s.pc, none, some s.pc.toNat⟩ }

/-- Every Step of every state answers a next state: the machine has no other stop than the latch (log entry 6). -/
def Obligations.EveryStepAnswersNext : Prop :=
  ∀ s : State, ∃ t, step s = .next t

/-- A Step that takes a fault commits nothing: its result is the state it began in, but for the latch, whose record holds
that state's `pc` and no word other than the fetched one (R172, the spec's decision D7). -/
def Obligations.FaultingStepCommitsNothing : Prop :=
  ∀ (s t : State) (f : FltRecord), s.flt = none → step s = .next t → t.flt = some f →
    t = { s with flt := some f } ∧ f.pc = s.pc ∧ (f.ir = none ↔ f.cause = .fetchRange) ∧
    ∀ w, f.ir = some w → w = s.fetchWord

/-- The five causes, each from the instructions and on the condition the table of spec/60_exceptions.md gives, and from no
others (R171, R174 to R176; the spec's own decisions D3 to D7, log entry 6). Indexes rise in scan order, so the first
set bit beyond the last cell is the one of least index. -/
def Obligations.FaultsOnlyOnTheirConditions : Prop :=
  ∀ (s t : State) (f : FltRecord), s.flt = none → step s = .next t → t.flt = some f →
    match f.cause with
    | .fetchRange => 0xFFF ≤ s.pc.toNat ∧ f.info = some s.pc.toNat
    | .memRange => f.info = some (max s.i.toNat 0x1000) ∧
        ((∃ x, s.Runs (.ldB x) ∧ 0xFFF < s.i.toNat + 2) ∨ (∃ x, s.Runs (.storeRegs x) ∧ 0xFFF < s.i.toNat + x.toNat) ∨
          (∃ x, s.Runs (.loadRegs x) ∧ 0xFFF < s.i.toNat + x.toNat) ∨
          ∃ x y n, s.Runs (.drw x y n) ∧ 0 < n.toNat ∧ 0x1000 < s.i.toNat + n.toNat)
    | .displayRange => ∃ x y n idx, s.Runs (.drw x y n) ∧ s.i.toNat + n.toNat ≤ 0x1000 ∧ f.info = some idx ∧
        2047 < idx ∧ s.Covers x y n idx ∧ ∀ idx', s.Covers x y n idx' → 2047 < idx' → idx ≤ idx'
    | .stackOverflow => (∃ nnn, s.Runs (.call nnn)) ∧ s.sc.val = 16 ∧ f.info = none
    | .stackUnderflow => s.Runs .ret ∧ s.sc.val = 0 ∧ f.info = none

/-- Every Step that does not fault takes each timer one down, floor zero, from what its handler left: the written value for
the two writing instructions, the old value for every other (R94; that a faulting Step decays nothing, D7, is
`FaultingStepCommitsNothing`). -/
def Obligations.TimersDecayEachStep : Prop :=
  ∀ (s t : State) (i : Instr), s.Runs i → step s = .next t → t.flt = none →
    ((∀ x, i ≠ .ldDtVx x) → t.dt.toNat = s.dt.toNat - 1) ∧ (∀ x, i = .ldDtVx x → t.dt.toNat = (s.reg x).toNat - 1) ∧
    ((∀ x, i ≠ .ldStVx x) → t.st.toNat = s.st.toNat - 1) ∧ (∀ x, i = .ldStVx x → t.st.toNat = (s.reg x).toNat - 1)

/-- Where `pc` stands after a Step that does not fault, for every instruction (the table of R25; its row for a faulting Step,
D7, is `FaultingStepCommitsNothing`). -/
def Obligations.ProgramCounterAfterStep : Prop :=
  ∀ (s t : State) (i : Instr), s.Runs i → step s = .next t → t.flt = none →
    match i with
    | .ret => ∀ k : Fin 16, s.sc.val = k.val + 1 → t.pc = s.stk[k.val]
    | .jp nnn => t.pc.toNat = nnn.toNat
    | .call nnn => t.pc.toNat = nnn.toNat
    | .jpV0 nnn => t.pc.toNat = (s.reg 0x0#4).toNat + nnn.toNat
    | .seImm x kk => t.pc = s.pc + (if s.reg x = kk then 4#16 else 2#16)
    | .sneImm x kk => t.pc = s.pc + (if s.reg x = kk then 2#16 else 4#16)
    | .seReg x y => t.pc = s.pc + (if s.reg x = s.reg y then 4#16 else 2#16)
    | .sneReg x y => t.pc = s.pc + (if s.reg x = s.reg y then 2#16 else 4#16)
    | .skp x => t.pc = s.pc + (if s.key.getLsbD ((s.reg x).toNat % 16) then 4#16 else 2#16)
    | .sknp x => t.pc = s.pc + (if s.key.getLsbD ((s.reg x).toNat % 16) then 2#16 else 4#16)
    | .ldVxK _ => t.pc = (if s.key = 0#16 then s.pc else s.pc + 2#16)
    | _ => t.pc = s.pc + 2#16

/-- Only Call and Return touch the stack and its count, each by one, and Return leaves every slot in place (R26). -/
def Obligations.StackTouchedOnlyByCallAndReturn : Prop :=
  ∀ s t : State, step s = .next t →
    ((∀ nnn, ¬ s.Runs (.call nnn)) → t.stk = s.stk) ∧
    ((∀ nnn, ¬ s.Runs (.call nnn)) → ¬ s.Runs .ret → t.sc = s.sc) ∧
    (t.sc.val ≠ s.sc.val → (∃ nnn, s.Runs (.call nnn)) ∧ t.sc.val = s.sc.val + 1 ∨ s.Runs .ret ∧ t.sc.val + 1 = s.sc.val)

/-- Only Clear and Draw write the display (R29). -/
def Obligations.DisplayWrittenOnlyByClearAndDraw : Prop :=
  ∀ s t : State, step s = .next t → ¬ s.Runs .cls → (∀ x y n, ¬ s.Runs (.drw x y n)) → t.disp = s.disp

/-- Only Store-BCD and Store-regs write memory (R50); for every other Step every byte reads as before. -/
def Obligations.MemoryWrittenOnlyByStores : Prop :=
  ∀ s t : State, step s = .next t → (∀ x, ¬ s.Runs (.ldB x)) → (∀ x, ¬ s.Runs (.storeRegs x)) →
    ∀ a, t.readByte a = s.readByte a

/-- Only Load-index, Add-index and Glyph-address write `I` (R23). -/
def Obligations.IndexWrittenOnlyByThree : Prop :=
  ∀ s t : State, step s = .next t → (∀ nnn, ¬ s.Runs (.ldI nnn)) → (∀ x, ¬ s.Runs (.addI x)) →
    (∀ x, ¬ s.Runs (.ldF x)) → t.i = s.i

/-- The flag register keeps its value through every Step but those of the six flag-producing instructions, of an instruction
whose destination field is 0xF, and of a Load-regs with x = 0xF (R22). -/
def Obligations.FlagRegisterWriters : Prop :=
  ∀ (s t : State) (i : Instr), s.Runs i → step s = .next t →
    (match i with
      | .addReg _ _ => False
      | .subReg _ _ => False
      | .shr _ _ => False
      | .subnReg _ _ => False
      | .shl _ _ => False
      | .drw _ _ _ => False
      | .ldImm x _ => x ≠ 0xF#4
      | .addImm x _ => x ≠ 0xF#4
      | .ldReg x _ => x ≠ 0xF#4
      | .orReg x _ => x ≠ 0xF#4
      | .andReg x _ => x ≠ 0xF#4
      | .xorReg x _ => x ≠ 0xF#4
      | .rnd x _ => x ≠ 0xF#4
      | .ldVxDt x => x ≠ 0xF#4
      | .ldVxK x => x ≠ 0xF#4
      | .loadRegs x => x ≠ 0xF#4
      | _ => True) → t.reg 0xF#4 = s.reg 0xF#4

/-- The key inputs reach only the two key skips and Wait-key, and the random input only Random: two states that differ in
their inputs alone, and agree in the input their instruction reads, step alike but for the inputs (R96; that an input is
constant during a Step is the spec's decision D15, the queue and its counter are log entry 3). -/
def Obligations.InputsReachOnlyTheirReaders : Prop :=
  ∀ (s s' t : State) (i : Instr), s.Runs i → OnlyInputsDiffer s s' → step s = .next t →
    ((∃ x, i = .skp x ∨ i = .sknp x ∨ i = .ldVxK x) → s.key = s'.key) → ((∃ x kk, i = .rnd x kk) → s.rnd = s'.rnd) →
    ∃ t', step s' = .next t' ∧ OnlyInputsDiffer t t'

/-! ## Invariant and reset -/

/-- The state after Reset, as the source's sentence gives it, for every glyph table (R6): registers and timers zero, `pc`
0x200, the glyph table at 0x050, the stack empty, the display clear (R35, R190). `State.reset` is the one with the
default table (log entry 2). -/
def Obligations.ResetAsTheSourceSays : Prop :=
  State.reset = State.resetWith defaultGlyphs ∧
  ∀ g : GlyphTable, (∀ x, (State.resetWith g).reg x = 0#8) ∧ (State.resetWith g).dt = 0#8 ∧
    (State.resetWith g).st = 0#8 ∧ (State.resetWith g).pc = 0x200#16 ∧ (State.resetWith g).sc.val = 0 ∧
    (∀ idx, idx < 2048 → (State.resetWith g).pixel idx = false) ∧
    ∀ k (h : k < 80), (State.resetWith g).readByte (0x050 + k) = g[k]

/-- What the spec's own decisions add to Reset, for every glyph table: `I` is 0 (D11, log entry 5), no fault is latched (D7), and every cell
outside the glyph table holds the unconstrained `MEM_INIT` (D12, log entry 1). -/
def Obligations.ResetByTheSpecsDecisions : Prop :=
  ∀ g : GlyphTable, (State.resetWith g).i = 0#16 ∧ (State.resetWith g).flt = none ∧
    ∀ a, a < 0x050 ∨ 0x0A0 ≤ a → (State.resetWith g).readByte a = Config.memInit (State.resetWith g).epoch a

/-- A later Reset gives the same values, clears the latch, copies in the machine's glyph table again, and leaves memory
outside it unspecified anew (R177, R190, R191; D7, D12). -/
def Obligations.LaterResetStartsAfresh : Prop :=
  ∀ s : State, s.reinit.flt = none ∧ s.reinit.pc = 0x200#16 ∧ s.reinit.i = 0#16 ∧ s.reinit.sc.val = 0 ∧
    s.reinit.dt = 0#8 ∧ s.reinit.st = 0#8 ∧ (∀ x, s.reinit.reg x = 0#8) ∧
    (∀ idx, idx < 2048 → s.reinit.pixel idx = false) ∧
    s.reinit.glyphs = s.glyphs ∧ (∀ k (h : k < 80), s.reinit.readByte (0x050 + k) = s.glyphs[k]) ∧
    (∀ a, a < 0x050 ∨ 0x0A0 ≤ a → s.reinit.readByte a = Config.memInit (s.epoch + 1) a)

/-- The invariant holds after Reset, whatever the glyph table. -/
def Obligations.ResetMeetsInv : Prop := State.reset.Inv ∧ ∀ g : GlyphTable, (State.resetWith g).Inv

/-- Every Step keeps the invariant: memory canonical (log entry 1), `pc` at most 0x10FE, the valid stack entries return
addresses, the latch fitting the state it stopped (the spec's decisions D3 to D7, log entry 6). -/
def Obligations.StepKeepsInv : Prop :=
  ∀ s t : State, s.Inv → step s = .next t → t.Inv

/-- Equal memories are equal lists: two listings in canonical form over a glyph table that tell the same of every address
are the same (log entry 1). -/
def Obligations.CanonicalMemoryIsUnique : Prop :=
  ∀ (g : GlyphTable) (m k : Memory), m.wf g = true → k.wf g = true → (∀ a, knownByte g m a = knownByte g k a) → m = k

/-! ## Control transfer -/

/-- Jump and Jump-indexed (R101, R103). -/
def Obligations.JumpsSetProgramCounter : Prop :=
  (∀ w : Word, w &&& 0xF000#16 = 0x1000#16 → decode w = .jp (fieldNnn w)) ∧
  (∀ w : Word, w &&& 0xF000#16 = 0xB000#16 → decode w = .jpV0 (fieldNnn w)) ∧
  (∀ nnn s, ∃ t, exec (.jp nnn) s = .next t ∧ OnlyPcChanges s t ∧ t.pc.toNat = nnn.toNat) ∧
  (∀ nnn s, ∃ t, exec (.jpV0 nnn) s = .next t ∧ OnlyPcChanges s t ∧ t.pc.toNat = (s.reg 0x0#4).toNat + nnn.toNat)

/-- Call (R102): below 16 entries the advanced `pc` goes to slot `SC`, `SC` goes up and `pc` to nnn; with 16 the
StackOverflowFault is taken (the fault is the spec's decision D6, taken as D7 says). -/
def Obligations.CallPushesReturnAddress : Prop :=
  (∀ w : Word, w &&& 0xF000#16 = 0x2000#16 → decode w = .call (fieldNnn w)) ∧
  (∀ nnn s, s.sc.val < 16 → ∃ t, exec (.call nnn) s = .next t ∧ OnlyStackAndPcChange s t ∧
    t.sc.val = s.sc.val + 1 ∧ t.pc.toNat = nnn.toNat ∧
    ∀ k : Fin 16, t.stk[k.val] = if k.val = s.sc.val then s.pc else s.stk[k.val]) ∧
  (∀ nnn s, s.sc.val = 16 → ∃ t, exec (.call nnn) s = .next t ∧ FaultTaken s t .stackOverflow none)

/-- Return (R100): with entries on the stack `SC` goes down and `pc` receives slot `SC`, every slot staying in place; with
none the StackUnderflowFault is taken (the fault is the spec's decision D6, taken as D7 says). -/
def Obligations.ReturnPopsProgramCounter : Prop :=
  (∀ w : Word, w &&& 0xF00F#16 = 0x000E#16 → decode w = .ret) ∧
  (∀ (s : State) (k : Fin 16), s.sc.val = k.val + 1 → ∃ t, exec .ret s = .next t ∧ OnlyStackAndPcChange s t ∧
    t.sc.val = k.val ∧ t.pc = s.stk[k.val] ∧ t.stk = s.stk) ∧
  (∀ s, s.sc.val = 0 → ∃ t, exec .ret s = .next t ∧ FaultTaken s t .stackUnderflow none)

/-- A Call and then a Return bring `pc` back to its value right after the Call was fetched, wherever the Return was fetched
from, and `SC` to its value before (the source's round trip, vector S3). -/
def Obligations.CallThenReturnRestoresProgramCounter : Prop :=
  ∀ (nnn : Addr12) (s t : State) (a w : Word), s.sc.val ≤ 15 → exec (.call nnn) s = .next t →
    ∃ u, exec .ret { t with pc := a, ir := w } = .next u ∧ u.pc = s.pc ∧ u.sc = s.sc ∧ u.flt = s.flt

/-- A Jump to its own address leaves everything but the timers (one down, floor zero), `IR` and the inputs (R193, which the
spec derives; D18). -/
def Obligations.SelfJumpParks : Prop :=
  ∀ (s : State) (nnn : Addr12), s.Runs (.jp nnn) → s.pc.toNat = nnn.toNat →
    ∃ t, step s = .next t ∧
      t = { s with dt := t.dt, st := t.st, ir := s.fetchWord, inputs := t.inputs, tick := t.tick } ∧
      t.dt.toNat = s.dt.toNat - 1 ∧ t.st.toNat = s.st.toNat - 1

/-! ## Skips -/

/-- Skip-if-eq-imm and Skip-if-ne-imm (R110, R111). -/
def Obligations.ImmediateSkips : Prop :=
  (∀ w : Word, w &&& 0xF000#16 = 0x3000#16 → decode w = .seImm (fieldX w) (fieldKk w)) ∧
  (∀ w : Word, w &&& 0xF000#16 = 0x4000#16 → decode w = .sneImm (fieldX w) (fieldKk w)) ∧
  (∀ x kk s, ∃ t, exec (.seImm x kk) s = .next t ∧ OnlyPcChanges s t ∧
    (s.reg x = kk → t.pc = s.pc + 2#16) ∧ (s.reg x ≠ kk → t.pc = s.pc)) ∧
  (∀ x kk s, ∃ t, exec (.sneImm x kk) s = .next t ∧ OnlyPcChanges s t ∧
    (s.reg x ≠ kk → t.pc = s.pc + 2#16) ∧ (s.reg x = kk → t.pc = s.pc))

/-- Skip-if-eq-reg and Skip-if-ne-reg (R112, R113). -/
def Obligations.RegisterSkips : Prop :=
  (∀ w : Word, w &&& 0xF000#16 = 0x5000#16 → decode w = .seReg (fieldX w) (fieldY w)) ∧
  (∀ w : Word, w &&& 0xF000#16 = 0x9000#16 → decode w = .sneReg (fieldX w) (fieldY w)) ∧
  (∀ x y s, ∃ t, exec (.seReg x y) s = .next t ∧ OnlyPcChanges s t ∧
    (s.reg x = s.reg y → t.pc = s.pc + 2#16) ∧ (s.reg x ≠ s.reg y → t.pc = s.pc)) ∧
  (∀ x y s, ∃ t, exec (.sneReg x y) s = .next t ∧ OnlyPcChanges s t ∧
    (s.reg x ≠ s.reg y → t.pc = s.pc + 2#16) ∧ (s.reg x = s.reg y → t.pc = s.pc))

/-- Skip-if-key-down and Skip-if-key-up, on the key the low nibble of V[x] names (R114, R115). -/
def Obligations.KeySkips : Prop :=
  (∀ w : Word, w &&& 0xF00F#16 = 0xE00E#16 → decode w = .skp (fieldX w)) ∧
  (∀ w : Word, w &&& 0xF00F#16 = 0xE001#16 → decode w = .sknp (fieldX w)) ∧
  (∀ x s, ∃ t, exec (.skp x) s = .next t ∧ OnlyPcChanges s t ∧
    (s.key.getLsbD ((s.reg x).toNat % 16) = true → t.pc = s.pc + 2#16) ∧
    (s.key.getLsbD ((s.reg x).toNat % 16) = false → t.pc = s.pc)) ∧
  (∀ x s, ∃ t, exec (.sknp x) s = .next t ∧ OnlyPcChanges s t ∧
    (s.key.getLsbD ((s.reg x).toNat % 16) = false → t.pc = s.pc + 2#16) ∧
    (s.key.getLsbD ((s.reg x).toNat % 16) = true → t.pc = s.pc))

/-! ## Loads and the ALU -/

/-- Load-imm and Add-imm: the sum is taken modulo 256 and no flag is written (R120, R121). -/
def Obligations.ImmediateLoadAndAdd : Prop :=
  (∀ w : Word, w &&& 0xF000#16 = 0x6000#16 → decode w = .ldImm (fieldX w) (fieldKk w)) ∧
  (∀ w : Word, w &&& 0xF000#16 = 0x7000#16 → decode w = .addImm (fieldX w) (fieldKk w)) ∧
  (∀ x kk s, ∃ t, exec (.ldImm x kk) s = .next t ∧ OnlyRegsChange s t ∧
    ∀ r, t.reg r = if r = x then kk else s.reg r) ∧
  (∀ x kk s, ∃ t, exec (.addImm x kk) s = .next t ∧ OnlyRegsChange s t ∧
    ∀ r, (t.reg r).toNat = if r = x then ((s.reg x).toNat + kk.toNat) % 256 else (s.reg r).toNat)

/-- Move, Or, And, Xor: only V[x] changes, and no flag is written unless x = 0xF (R122 to R125). -/
def Obligations.MoveAndLogic : Prop :=
  (∀ w : Word, w &&& 0xF00F#16 = 0x8000#16 → decode w = .ldReg (fieldX w) (fieldY w)) ∧
  (∀ w : Word, w &&& 0xF00F#16 = 0x8001#16 → decode w = .orReg (fieldX w) (fieldY w)) ∧
  (∀ w : Word, w &&& 0xF00F#16 = 0x8002#16 → decode w = .andReg (fieldX w) (fieldY w)) ∧
  (∀ w : Word, w &&& 0xF00F#16 = 0x8003#16 → decode w = .xorReg (fieldX w) (fieldY w)) ∧
  (∀ x y s, ∃ t, exec (.ldReg x y) s = .next t ∧ OnlyRegsChange s t ∧
    ∀ r, t.reg r = if r = x then s.reg y else s.reg r) ∧
  (∀ x y s, ∃ t, exec (.orReg x y) s = .next t ∧ OnlyRegsChange s t ∧
    ∀ r, t.reg r = if r = x then s.reg x ||| s.reg y else s.reg r) ∧
  (∀ x y s, ∃ t, exec (.andReg x y) s = .next t ∧ OnlyRegsChange s t ∧
    ∀ r, t.reg r = if r = x then s.reg x &&& s.reg y else s.reg r) ∧
  (∀ x y s, ∃ t, exec (.xorReg x y) s = .next t ∧ OnlyRegsChange s t ∧
    ∀ r, t.reg r = if r = x then s.reg x ^^^ s.reg y else s.reg r)

/-- Add: V[x] receives the sum modulo 256; VF, unless it is V[x] itself, the carry (R126). For the forms that name VF (with
x = 0xF the sum is what stays in V[x], with y = 0xF the addend is VF's old value) this rests on the order of reads and
writes that is the spec's decision D8 (R133; log entry 9). -/
def Obligations.AddSetsCarry : Prop :=
  (∀ w : Word, w &&& 0xF00F#16 = 0x8004#16 → decode w = .addReg (fieldX w) (fieldY w)) ∧
  (∀ x y s, ∃ t, exec (.addReg x y) s = .next t ∧ OnlyRegsChange s t ∧
    (t.reg x).toNat = ((s.reg x).toNat + (s.reg y).toNat) % 256 ∧
    (x ≠ 0xF#4 → t.reg 0xF#4 = if (s.reg x).toNat + (s.reg y).toNat > 255 then 1#8 else 0#8) ∧
    ∀ r, r ≠ x → r ≠ 0xF#4 → t.reg r = s.reg r)

/-- Sub and Subn on operands other than VF: the difference modulo 256, and VF = 1 exactly when the minuend is strictly
greater (R127, R129). The forms that name VF are in `FlagRegisterAsOperand`. -/
def Obligations.SubtractionsSetGreaterFlag : Prop :=
  (∀ w : Word, w &&& 0xF00F#16 = 0x8005#16 → decode w = .subReg (fieldX w) (fieldY w)) ∧
  (∀ w : Word, w &&& 0xF00F#16 = 0x8007#16 → decode w = .subnReg (fieldX w) (fieldY w)) ∧
  (∀ x y s, x ≠ 0xF#4 → y ≠ 0xF#4 → ∃ t, exec (.subReg x y) s = .next t ∧ OnlyRegsChange s t ∧
    (t.reg x).toNat = ((s.reg x).toNat + 256 - (s.reg y).toNat) % 256 ∧
    (t.reg 0xF#4 = if (s.reg x).toNat > (s.reg y).toNat then 1#8 else 0#8) ∧
    ∀ r, r ≠ x → r ≠ 0xF#4 → t.reg r = s.reg r) ∧
  (∀ x y s, x ≠ 0xF#4 → y ≠ 0xF#4 → ∃ t, exec (.subnReg x y) s = .next t ∧ OnlyRegsChange s t ∧
    (t.reg x).toNat = ((s.reg y).toNat + 256 - (s.reg x).toNat) % 256 ∧
    (t.reg 0xF#4 = if (s.reg y).toNat > (s.reg x).toNat then 1#8 else 0#8) ∧
    ∀ r, r ≠ x → r ≠ 0xF#4 → t.reg r = s.reg r)

/-- Shift-right: V[x] is halved, VF receives the dropped bit; with x = 0xF it ends 0 (R128). -/
def Obligations.ShiftRightDropsLowBit : Prop :=
  (∀ w : Word, w &&& 0xF00F#16 = 0x8006#16 → decode w = .shr (fieldX w) (fieldY w)) ∧
  (∀ x y s, ∃ t, exec (.shr x y) s = .next t ∧ OnlyRegsChange s t ∧
    (x ≠ 0xF#4 → (t.reg x).toNat = (s.reg x).toNat / 2 ∧ (t.reg 0xF#4).toNat = (s.reg x).toNat % 2) ∧
    (x = 0xF#4 → t.reg 0xF#4 = 0#8) ∧
    ∀ r, r ≠ x → r ≠ 0xF#4 → t.reg r = s.reg r)

/-- Shift-left: V[x] is doubled modulo 256, VF receives the dropped bit; with x = 0xF it ends twice that bit (R130, whose
order for x = 0xF is the spec's decision D8, log entry 9). -/
def Obligations.ShiftLeftDropsHighBit : Prop :=
  (∀ w : Word, w &&& 0xF00F#16 = 0x800E#16 → decode w = .shl (fieldX w) (fieldY w)) ∧
  (∀ x y s, ∃ t, exec (.shl x y) s = .next t ∧ OnlyRegsChange s t ∧
    (x ≠ 0xF#4 → (t.reg x).toNat = 2 * (s.reg x).toNat % 256 ∧ (t.reg 0xF#4).toNat = (s.reg x).toNat / 128) ∧
    (x = 0xF#4 → (t.reg 0xF#4).toNat = 2 * ((s.reg 0xF#4).toNat / 128)) ∧
    ∀ r, r ≠ x → r ≠ 0xF#4 → t.reg r = s.reg r)

/-- Sub and Subn with VF as an operand: the table of R133, which the spec derives from the sequential order (D8, log entry
9). `b` stands for the flag as a number. -/
def Obligations.FlagRegisterAsOperand : Prop :=
  (∀ (y : Nibble) (s : State) (b : Nat), y ≠ 0xF#4 → b = (if (s.reg 0xF#4).toNat > (s.reg y).toNat then 1 else 0) →
    ∃ t, exec (.subReg 0xF#4 y) s = .next t ∧ OnlyRegsChange s t ∧
      (t.reg 0xF#4).toNat = (b + 256 - (s.reg y).toNat) % 256 ∧ ∀ r, r ≠ 0xF#4 → t.reg r = s.reg r) ∧
  (∀ (x : Nibble) (s : State) (b : Nat), x ≠ 0xF#4 → b = (if (s.reg x).toNat > (s.reg 0xF#4).toNat then 1 else 0) →
    ∃ t, exec (.subReg x 0xF#4) s = .next t ∧ OnlyRegsChange s t ∧ (t.reg 0xF#4).toNat = b ∧
      (t.reg x).toNat = ((s.reg x).toNat + 256 - b) % 256 ∧ ∀ r, r ≠ x → r ≠ 0xF#4 → t.reg r = s.reg r) ∧
  (∀ s, ∃ t, exec (.subReg 0xF#4 0xF#4) s = .next t ∧ OnlyRegsChange s t ∧
      t.reg 0xF#4 = 0#8 ∧ ∀ r, r ≠ 0xF#4 → t.reg r = s.reg r) ∧
  (∀ (y : Nibble) (s : State) (b : Nat), y ≠ 0xF#4 → b = (if (s.reg y).toNat > (s.reg 0xF#4).toNat then 1 else 0) →
    ∃ t, exec (.subnReg 0xF#4 y) s = .next t ∧ OnlyRegsChange s t ∧
      (t.reg 0xF#4).toNat = ((s.reg y).toNat + 256 - b) % 256 ∧ ∀ r, r ≠ 0xF#4 → t.reg r = s.reg r) ∧
  (∀ (x : Nibble) (s : State) (b : Nat), x ≠ 0xF#4 → b = (if (s.reg 0xF#4).toNat > (s.reg x).toNat then 1 else 0) →
    ∃ t, exec (.subnReg x 0xF#4) s = .next t ∧ OnlyRegsChange s t ∧ (t.reg 0xF#4).toNat = b ∧
      (t.reg x).toNat = (b + 256 - (s.reg x).toNat) % 256 ∧ ∀ r, r ≠ x → r ≠ 0xF#4 → t.reg r = s.reg r) ∧
  (∀ s, ∃ t, exec (.subnReg 0xF#4 0xF#4) s = .next t ∧ OnlyRegsChange s t ∧
      t.reg 0xF#4 = 0#8 ∧ ∀ r, r ≠ 0xF#4 → t.reg r = s.reg r)

/-- Random: V[x] receives the random input masked with kk, and the random input can be any of the 256 values at any
execution (R131; the free draw is the spec's decision D14, its queue is log entry 3). -/
def Obligations.RandomIsMaskedInput : Prop :=
  (∀ w : Word, w &&& 0xF000#16 = 0xC000#16 → decode w = .rnd (fieldX w) (fieldKk w)) ∧
  (∀ x kk s, ∃ t, exec (.rnd x kk) s = .next t ∧ OnlyRegsChange s t ∧
    ∀ r, t.reg r = if r = x then s.rnd &&& kk else s.reg r) ∧
  (∀ (s : State) (b : Byte), ∃ s', OnlyInputsDiffer s s' ∧ s'.key = s.key ∧ s'.rnd = b)

/-! ## Index register and memory -/

/-- Load-index, Add-index (modulo 65536, no flag) and Glyph-address (no mask) (R140 to R142). -/
def Obligations.IndexRegisterWrites : Prop :=
  (∀ w : Word, w &&& 0xF000#16 = 0xA000#16 → decode w = .ldI (fieldNnn w)) ∧
  (∀ w : Word, w &&& 0xF0FF#16 = 0xF01E#16 → decode w = .addI (fieldX w)) ∧
  (∀ w : Word, w &&& 0xF0FF#16 = 0xF029#16 → decode w = .ldF (fieldX w)) ∧
  (∀ nnn s, ∃ t, exec (.ldI nnn) s = .next t ∧ OnlyIChanges s t ∧ t.i.toNat = nnn.toNat) ∧
  (∀ x s, ∃ t, exec (.addI x) s = .next t ∧ OnlyIChanges s t ∧ t.i.toNat = (s.i.toNat + (s.reg x).toNat) % 65536) ∧
  (∀ x s, ∃ t, exec (.ldF x) s = .next t ∧ OnlyIChanges s t ∧ t.i.toNat = 0x050 + 5 * (s.reg x).toNat)

/-- Store-BCD (R143): the three decimal digits of V[x] go to `I`, `I` + 1, `I` + 2 and no other byte changes; where `I` + 2
lies above 0xFFF the MemRangeFault is taken (the fault is the spec's decision D3, taken as D7 says). -/
def Obligations.StoreBcdWritesDigits : Prop :=
  (∀ w : Word, w &&& 0xF0FF#16 = 0xF033#16 → decode w = .ldB (fieldX w)) ∧
  (∀ x s, s.i.toNat + 2 ≤ 0xFFF → ∃ t, exec (.ldB x) s = .next t ∧ OnlyMemChanges s t ∧
    (t.readByte s.i.toNat).toNat ≤ 2 ∧ (t.readByte (s.i.toNat + 1)).toNat ≤ 9 ∧
    (t.readByte (s.i.toNat + 2)).toNat ≤ 9 ∧
    (s.reg x).toNat = 100 * (t.readByte s.i.toNat).toNat + 10 * (t.readByte (s.i.toNat + 1)).toNat +
      (t.readByte (s.i.toNat + 2)).toNat ∧
    ∀ a, a < s.i.toNat ∨ s.i.toNat + 2 < a → t.readByte a = s.readByte a) ∧
  (∀ x s, 0xFFF < s.i.toNat + 2 → ∃ t, exec (.ldB x) s = .next t ∧
    FaultTaken s t .memRange (some (max s.i.toNat 0x1000)))

/-- Store-regs (R144): V[0] to V[x] go to `I` upward and no other byte changes, `I` itself neither; where `I` + x lies
above 0xFFF the MemRangeFault is taken (the fault is the spec's decision D3, taken as D7 says). -/
def Obligations.StoreRegsWritesRegisters : Prop :=
  (∀ w : Word, w &&& 0xF0FF#16 = 0xF055#16 → decode w = .storeRegs (fieldX w)) ∧
  (∀ x s, s.i.toNat + x.toNat ≤ 0xFFF → ∃ t, exec (.storeRegs x) s = .next t ∧ OnlyMemChanges s t ∧
    (∀ r : Nibble, r.toNat ≤ x.toNat → t.readByte (s.i.toNat + r.toNat) = s.reg r) ∧
    ∀ a, a < s.i.toNat ∨ s.i.toNat + x.toNat < a → t.readByte a = s.readByte a) ∧
  (∀ x s, 0xFFF < s.i.toNat + x.toNat → ∃ t, exec (.storeRegs x) s = .next t ∧
    FaultTaken s t .memRange (some (max s.i.toNat 0x1000)))

/-- Load-regs (R145): V[0] to V[x] receive the bytes from `I` upward and no other register changes; where `I` + x lies
above 0xFFF the MemRangeFault is taken (the fault is the spec's decision D3, taken as D7 says). -/
def Obligations.LoadRegsReadsMemory : Prop :=
  (∀ w : Word, w &&& 0xF0FF#16 = 0xF065#16 → decode w = .loadRegs (fieldX w)) ∧
  (∀ x s, s.i.toNat + x.toNat ≤ 0xFFF → ∃ t, exec (.loadRegs x) s = .next t ∧ OnlyRegsChange s t ∧
    ∀ r : Nibble, t.reg r = if r.toNat ≤ x.toNat then s.readByte (s.i.toNat + r.toNat) else s.reg r) ∧
  (∀ x s, 0xFFF < s.i.toNat + x.toNat → ∃ t, exec (.loadRegs x) s = .next t ∧
    FaultTaken s t .memRange (some (max s.i.toNat 0x1000)))

/-- Store-regs and then Load-regs of the same range, with `I` kept, bring every register back. -/
def Obligations.StoreThenLoadRestoresRegisters : Prop :=
  ∀ (x : Nibble) (s t : State) (v : Vector Byte 16), s.i.toNat + x.toNat ≤ 0xFFF →
    (∀ r : Nibble, x.toNat < r.toNat → v[r.toNat]'r.isLt = s.reg r) → exec (.storeRegs x) s = .next t →
    ∃ u, exec (.loadRegs x) { t with v := v } = .next u ∧ ∀ r, u.reg r = s.reg r

/-- A byte written by one access is what the next read of its address gives, every other address reads as before, and the
canonical form of memory is kept (R52, R59). -/
def Obligations.MemoryReadsLatestWrite : Prop :=
  ∀ (s : State) (a : Nat) (b : Byte), a ≤ 0xFFF → ∃ t, s.memWrite a b = .ok t ∧ OnlyMemChanges s t ∧
    t.memRead a = .ok b ∧ (∀ c, c ≠ a → t.readByte c = s.readByte c) ∧
    (s.mem.wf s.glyphs = true → t.mem.wf t.glyphs = true)

/-- A store is seen by the fetch of the very next Step (R62), for every Store-regs and every Store-BCD inside the space: the
next Step runs what its fetched word decodes to, and each half of that word (the bytes at the advanced `pc` and after it)
is the stored byte where the store reaches it and the old byte where it does not. -/
def Obligations.StoreSeenByNextFetch : Prop :=
  (∀ (s t : State) (x : Nibble), s.Runs (.storeRegs x) → s.i.toNat + x.toNat ≤ 0xFFF → s.pc.toNat + 3 ≤ 0xFFF →
    step s = .next t → t.pc = s.pc + 2#16 ∧ t.Runs (decode t.fetchWord) ∧
    (∀ r : Nibble, r.toNat ≤ x.toNat → s.i.toNat + r.toNat = s.pc.toNat + 2 →
      t.fetchWord.toNat / 256 = (s.reg r).toNat) ∧
    (∀ r : Nibble, r.toNat ≤ x.toNat → s.i.toNat + r.toNat = s.pc.toNat + 3 →
      t.fetchWord.toNat % 256 = (s.reg r).toNat) ∧
    (s.pc.toNat + 2 < s.i.toNat ∨ s.i.toNat + x.toNat < s.pc.toNat + 2 →
      t.fetchWord.toNat / 256 = (s.readByte (s.pc.toNat + 2)).toNat) ∧
    (s.pc.toNat + 3 < s.i.toNat ∨ s.i.toNat + x.toNat < s.pc.toNat + 3 →
      t.fetchWord.toNat % 256 = (s.readByte (s.pc.toNat + 3)).toNat)) ∧
  (∀ (s t : State) (x : Nibble), s.Runs (.ldB x) → s.i.toNat + 2 ≤ 0xFFF → s.pc.toNat + 3 ≤ 0xFFF →
    step s = .next t → t.pc = s.pc + 2#16 ∧ t.Runs (decode t.fetchWord) ∧
    (∀ k, k < 3 → s.i.toNat + k = s.pc.toNat + 2 →
      t.fetchWord.toNat / 256 = (s.reg x).toNat / 10 ^ (2 - k) % 10) ∧
    (∀ k, k < 3 → s.i.toNat + k = s.pc.toNat + 3 →
      t.fetchWord.toNat % 256 = (s.reg x).toNat / 10 ^ (2 - k) % 10) ∧
    (s.pc.toNat + 2 < s.i.toNat ∨ s.i.toNat + 2 < s.pc.toNat + 2 →
      t.fetchWord.toNat / 256 = (s.readByte (s.pc.toNat + 2)).toNat) ∧
    (s.pc.toNat + 3 < s.i.toNat ∨ s.i.toNat + 2 < s.pc.toNat + 3 →
      t.fetchWord.toNat % 256 = (s.readByte (s.pc.toNat + 3)).toNat))

/-! ## Display -/

/-- Clear turns every pixel off and changes nothing else (R150). -/
def Obligations.ClearTurnsPixelsOff : Prop :=
  (∀ w : Word, w &&& 0xF00F#16 = 0x0000#16 → decode w = .cls) ∧
  (∀ s, ∃ t, exec .cls s = .next t ∧ OnlyDisplayChanges s t ∧ ∀ idx, idx < 2048 → t.pixel idx = false)

/-- Draw, where its rows lie in memory and its set bits on the display (R151): exactly the covered pixels are toggled, VF
tells whether one of them was on, and nothing else changes. The origin is read before VF is reset (D9). -/
def Obligations.DrawTogglesCoveredPixels : Prop :=
  (∀ w : Word, w &&& 0xF000#16 = 0xD000#16 → decode w = .drw (fieldX w) (fieldY w) (fieldN w)) ∧
  (∀ x y n s, (n = 0#4 ∨ s.i.toNat + n.toNat ≤ 0x1000) → (∀ idx, s.Covers x y n idx → idx ≤ 2047) →
    ∃ t, exec (.drw x y n) s = .next t ∧ OnlyDisplayAndRegsChange s t ∧
      (∀ idx, s.Covers x y n idx → t.pixel idx = !s.pixel idx) ∧
      (∀ idx, ¬ s.Covers x y n idx → t.pixel idx = s.pixel idx) ∧
      ((∃ idx, s.Covers x y n idx ∧ s.pixel idx = true) → t.reg 0xF#4 = 1#8) ∧
      ((∀ idx, s.Covers x y n idx → s.pixel idx = false) → t.reg 0xF#4 = 0#8) ∧
      ∀ r, r ≠ 0xF#4 → t.reg r = s.reg r)

/-- Draw where a row lies above 0xFFF takes the MemRangeFault at the lowest such address; where the rows lie in memory and
a set bit falls beyond the last cell, the DisplayRangeFault at the first such bit in scan order (R151, R171, R176; the
spec's decisions D3, D5, D7). -/
def Obligations.DrawFaults : Prop :=
  (∀ x y n s, n ≠ 0#4 → 0x1000 < s.i.toNat + n.toNat →
    ∃ t, exec (.drw x y n) s = .next t ∧ FaultTaken s t .memRange (some (max s.i.toNat 0x1000))) ∧
  (∀ x y n s r c, s.i.toNat + n.toNat ≤ 0x1000 → s.SpriteBit n r c → 2047 < s.spriteIndex x y r c →
    (∀ r' c', s.SpriteBit n r' c' → 2047 < s.spriteIndex x y r' c' → r < r' ∨ r = r' ∧ c ≤ c') →
    ∃ t, exec (.drw x y n) s = .next t ∧ FaultTaken s t .displayRange (some (s.spriteIndex x y r c)))

/-- Drawing the same sprite at the same place twice restores the display, and VF after the second draw tells whether some
covered pixel was off before the first (R152, which the spec derives). -/
def Obligations.DrawTwiceRestoresDisplay : Prop :=
  ∀ (x y n : Nibble) (s t : State), s.flt = none → exec (.drw x y n) s = .next t → t.flt = none →
    t.reg x = s.reg x → t.reg y = s.reg y →
    ∃ u, exec (.drw x y n) t = .next u ∧ u.flt = none ∧ u.disp = s.disp ∧
      ((∃ idx, s.Covers x y n idx ∧ s.pixel idx = false) → u.reg 0xF#4 = 1#8) ∧
      ((∀ idx, s.Covers x y n idx → s.pixel idx = true) → u.reg 0xF#4 = 0#8)

/-! ## Timers, keys, the no-op -/

/-- Read-delay (R160): V[x] receives the value before its own Step's decay. -/
def Obligations.ReadDelayGivesTimer : Prop :=
  (∀ w : Word, w &&& 0xF0FF#16 = 0xF007#16 → decode w = .ldVxDt (fieldX w)) ∧
  (∀ x s, ∃ t, exec (.ldVxDt x) s = .next t ∧ OnlyRegsChange s t ∧ ∀ r, t.reg r = if r = x then s.dt else s.reg r) ∧
  (∀ x s, s.Runs (.ldVxDt x) → ∃ t, step s = .next t ∧ t.reg x = s.dt ∧ t.dt.toNat = s.dt.toNat - 1)

/-- Wait-key (R161): the lowest pressed key goes to V[x]; with none pressed `pc` goes back by 2, so that the whole Step
leaves it at the same instruction. -/
def Obligations.WaitKeyTakesLowestKey : Prop :=
  (∀ w : Word, w &&& 0xF0FF#16 = 0xF00A#16 → decode w = .ldVxK (fieldX w)) ∧
  (∀ (x : Nibble) (s : State) (k : Nat), k < 16 → s.key.getLsbD k = true → (∀ j, j < k → s.key.getLsbD j = false) →
    ∃ t, exec (.ldVxK x) s = .next t ∧ OnlyRegsChange s t ∧
      ∀ r, (t.reg r).toNat = if r = x then k else (s.reg r).toNat) ∧
  (∀ (x : Nibble) (s : State), (∀ k, k < 16 → s.key.getLsbD k = false) →
    ∃ t, exec (.ldVxK x) s = .next t ∧ OnlyPcChanges s t ∧ t.pc = s.pc - 2#16) ∧
  (∀ (x : Nibble) (s : State), s.Runs (.ldVxK x) → s.key = 0#16 →
    ∃ t, step s = .next t ∧ t.pc = s.pc ∧ t.v = s.v ∧ t.dt.toNat = s.dt.toNat - 1 ∧ t.st.toNat = s.st.toNat - 1)

/-- Write-delay and Write-sound (R162, R163): the decay of the same Step follows, so a written 1 is never seen. -/
def Obligations.TimerWritesDecayAtOnce : Prop :=
  (∀ w : Word, w &&& 0xF0FF#16 = 0xF015#16 → decode w = .ldDtVx (fieldX w)) ∧
  (∀ w : Word, w &&& 0xF0FF#16 = 0xF018#16 → decode w = .ldStVx (fieldX w)) ∧
  (∀ x s, ∃ t, exec (.ldDtVx x) s = .next t ∧ OnlyDtChanges s t ∧ t.dt = s.reg x) ∧
  (∀ x s, ∃ t, exec (.ldStVx x) s = .next t ∧ OnlyStChanges s t ∧ t.st = s.reg x) ∧
  (∀ x s, s.Runs (.ldDtVx x) → ∃ t, step s = .next t ∧ t.dt.toNat = (s.reg x).toNat - 1) ∧
  (∀ x s, s.Runs (.ldStVx x) → ∃ t, step s = .next t ∧ t.st.toNat = (s.reg x).toNat - 1 ∧
    t.soundActive = decide (1 < (s.reg x).toNat))

/-- `UNMAPPED` (R77): no statement; the Step as a whole sets `IR`, advances `pc` by 2 and decays the timers. -/
def Obligations.UnmappedWordIsNoOp : Prop :=
  (∀ w : Word, (∀ row ∈ opcodeRows, row.hits w = false) → decode w = .unmapped w) ∧
  (∀ w s, exec (.unmapped w) s = .next s) ∧
  (∀ w s, s.Runs (.unmapped w) → ∃ t, step s = .next t ∧
    t = { s with ir := w, pc := s.pc + 2#16, dt := t.dt, st := t.st, inputs := t.inputs, tick := t.tick } ∧
    t.dt.toNat = s.dt.toNat - 1 ∧ t.st.toNat = s.st.toNat - 1)

/-! ## The outside -/

/-- The loader copies an image of at most 3584 bytes to 0x200 upward and changes nothing else; a longer one is refused, and
a later write is accepted exactly at 0x200 to 0xFFF, where it sets that one byte and changes nothing else (R38, R41; the
later write is the spec's decision D20, log entry 10). -/
def Obligations.LoaderPlacesImage : Prop :=
  (∀ (s : State) (image : List Byte), image.length ≤ 3584 → ∃ t, s.load image = some t ∧ OnlyMemChanges s t ∧
    (∀ k (h : k < image.length), t.readByte (0x200 + k) = image[k]) ∧
    (∀ a, a < 0x200 ∨ 0x200 + image.length ≤ a → t.readByte a = s.readByte a) ∧
    (s.mem.wf s.glyphs = true → t.mem.wf t.glyphs = true)) ∧
  (∀ (s : State) (image : List Byte), 3584 < image.length → s.load image = none) ∧
  (∀ (s : State) (a : Nat) (b : Byte), (s.loaderWrite a b).isSome = decide (0x200 ≤ a ∧ a ≤ 0xFFF)) ∧
  (∀ (s t : State) (a : Nat) (b : Byte), s.loaderWrite a b = some t → OnlyMemChanges s t ∧ t.readByte a = b ∧
    (∀ c, c ≠ a → t.readByte c = s.readByte c) ∧ (s.mem.wf s.glyphs = true → t.mem.wf t.glyphs = true))
end

