-- ==== Sys2Proof/Laws/Memory.lean ====
section
/-! SUPPORT. Memory as data: reading after storing, and that every operation keeps the canonical form. -/

namespace Sys2Proof.Machine

variable {g : GlyphTable}

/-! ## The canonical form -/

theorem canonicalFrom_cons {lo a : Nat} {v : Byte} {rest : Memory} :
    canonicalFrom g lo ((a, v) :: rest) = true ↔
      lo ≤ a ∧ a < 4096 ∧ unlistedByte g a ≠ some v ∧ canonicalFrom g (a + 1) rest = true := by
  simp [canonicalFrom, and_assoc]

theorem canonicalFrom_mono {m : Memory} {lo lo' : Nat} (h : lo' ≤ lo) (hm : canonicalFrom g lo m = true) :
    canonicalFrom g lo' m = true := by
  cases m with
  | nil => rfl
  | cons c rest =>
    rw [canonicalFrom_cons] at hm ⊢
    exact ⟨by omega, hm.2⟩

/-- Below the bound of a canonical listing nothing is listed. -/
theorem listedByte_below {m : Memory} {lo a : Nat} (hm : canonicalFrom g lo m = true) (h : a < lo) :
    listedByte m a = none := by
  induction m generalizing lo with
  | nil => rfl
  | cons c rest ih =>
    rw [canonicalFrom_cons] at hm
    rw [listedByte, if_neg (by omega)]
    exact ih hm.2.2.2 (by omega)

/-! ## Reading after storing -/

theorem listedByte_enlist (m : Memory) (a c : Nat) (v : Byte) :
    listedByte (enlist m a v) c = if c = a then some v else listedByte m c := by
  induction m with
  | nil => simp [enlist, listedByte]
  | cons d rest ih =>
    obtain ⟨b, w⟩ := d
    unfold enlist
    split
    · simp [listedByte]
    · split
      · rename_i h; subst h
        by_cases hc : c = a <;> simp [listedByte, hc]
      · rename_i h
        by_cases hc : c = b
        · subst hc; simp [listedByte, Ne.symm h]
        · simp [listedByte, hc, ih]

theorem listedByte_unlist (m : Memory) (a c : Nat) :
    listedByte (unlist m a) c = if c = a then none else listedByte m c := by
  induction m with
  | nil => simp [unlist, listedByte]
  | cons d rest ih =>
    obtain ⟨b, w⟩ := d
    unfold unlist
    by_cases hab : a = b
    · subst hab
      rw [if_pos rfl, ih]
      by_cases hc : c = a <;> simp [listedByte, hc]
    · by_cases hc : c = b
      · subst hc; simp [listedByte, hab, Ne.symm hab]
      · simp [listedByte, hab, hc, ih]

/-- What the memory data says of an address after a byte is stored. -/
theorem knownByte_storeByte (g : GlyphTable) (m : Memory) (a c : Nat) (v : Byte) :
    knownByte g (storeByte g m a v) c = if c = a then some v else knownByte g m c := by
  unfold storeByte
  by_cases h : unlistedByte g a = some v
  · rw [if_pos h]
    by_cases hc : c = a
    · subst hc; simp [knownByte, listedByte_unlist, h]
    · simp [knownByte, listedByte_unlist, hc]
  · rw [if_neg h]
    by_cases hc : c = a <;> simp [knownByte, listedByte_enlist, hc]

/-- The byte at an address after a byte is stored. -/
theorem byteAt_storeByte (g : GlyphTable) (epoch : Nat) (m : Memory) (a c : Nat) (v : Byte) :
    byteAt g epoch (storeByte g m a v) c = if c = a then v else byteAt g epoch m c := by
  unfold byteAt
  rw [knownByte_storeByte]
  by_cases hc : c = a <;> simp [hc]

/-! ## Reset contents -/

/-- The glyph table is read where Reset copies it. -/
theorem unlistedByte_glyph (g : GlyphTable) {k : Nat} (h : k < 80) : unlistedByte g (0x050 + k) = some g[k] := by
  rw [unlistedByte, if_pos (by simp only [Config.glyphBase, Config.glyphBytes]; omega), Nat.add_sub_cancel_left]
  exact Vector.getElem?_eq_getElem h

/-- Outside the glyph table the reset contents are unknown. -/
theorem unlistedByte_outside (g : GlyphTable) {a : Nat} (h : a < 0x050 ∨ 0x0A0 ≤ a) : unlistedByte g a = none := by
  rw [unlistedByte, if_neg (by simp only [Config.glyphBase, Config.glyphBytes]; omega)]

/-! ## Keeping the canonical form -/

theorem canonicalFrom_unlist {m : Memory} {lo : Nat} (a : Nat) (hm : canonicalFrom g lo m = true) :
    canonicalFrom g lo (unlist m a) = true := by
  induction m generalizing lo with
  | nil => rfl
  | cons d rest ih =>
    obtain ⟨b, w⟩ := d
    rw [canonicalFrom_cons] at hm
    unfold unlist
    split
    · exact canonicalFrom_mono (by omega) (ih hm.2.2.2)
    · exact canonicalFrom_cons.mpr ⟨hm.1, hm.2.1, hm.2.2.1, ih hm.2.2.2⟩

theorem canonicalFrom_enlist {m : Memory} {lo a : Nat} {v : Byte} (ha : lo ≤ a) (hs : a < 4096)
    (hv : unlistedByte g a ≠ some v) (hm : canonicalFrom g lo m = true) : canonicalFrom g lo (enlist m a v) = true := by
  induction m generalizing lo with
  | nil => exact canonicalFrom_cons.mpr ⟨ha, hs, hv, rfl⟩
  | cons d rest ih =>
    obtain ⟨b, w⟩ := d
    have hm' := canonicalFrom_cons.mp hm
    unfold enlist
    split
    · rename_i hlt
      exact canonicalFrom_cons.mpr ⟨ha, hs, hv, canonicalFrom_cons.mpr ⟨by omega, hm'.2⟩⟩
    · split
      · rename_i h; subst h
        exact canonicalFrom_cons.mpr ⟨ha, hs, hv, hm'.2.2.2⟩
      · exact canonicalFrom_cons.mpr ⟨hm'.1, hm'.2.1, hm'.2.2.1, ih (by omega) hm'.2.2.2⟩

/-- Storing a byte inside the space keeps the canonical form. -/
theorem storeByte_keeps_wf {m : Memory} {a : Nat} (v : Byte) (ha : a < 4096) (hm : Memory.wf m g = true) :
    Memory.wf (storeByte g m a v) g = true := by
  unfold storeByte
  split
  · exact canonicalFrom_unlist a hm
  · exact canonicalFrom_enlist (Nat.zero_le a) ha ‹_› hm

end Sys2Proof.Machine
end

