-- ==== Sys2Proof/Laws/State.lean ====
section
/-! SUPPORT. One lemma per field per update of the state, so that no proof unfolds a record update. -/

namespace Sys2Proof.Machine

/-! ### `setReg` -/

@[simp] theorem State.setReg_v (s : State) (x : Nibble) (b : Byte) : (s.setReg x b).v = s.v.set x.toNat b x.isLt := rfl
@[simp] theorem State.setReg_i (s : State) (x : Nibble) (b : Byte) : (s.setReg x b).i = s.i := rfl
@[simp] theorem State.setReg_pc (s : State) (x : Nibble) (b : Byte) : (s.setReg x b).pc = s.pc := rfl
@[simp] theorem State.setReg_stk (s : State) (x : Nibble) (b : Byte) : (s.setReg x b).stk = s.stk := rfl
@[simp] theorem State.setReg_sc (s : State) (x : Nibble) (b : Byte) : (s.setReg x b).sc = s.sc := rfl
@[simp] theorem State.setReg_dt (s : State) (x : Nibble) (b : Byte) : (s.setReg x b).dt = s.dt := rfl
@[simp] theorem State.setReg_st (s : State) (x : Nibble) (b : Byte) : (s.setReg x b).st = s.st := rfl
@[simp] theorem State.setReg_disp (s : State) (x : Nibble) (b : Byte) : (s.setReg x b).disp = s.disp := rfl
@[simp] theorem State.setReg_ir (s : State) (x : Nibble) (b : Byte) : (s.setReg x b).ir = s.ir := rfl
@[simp] theorem State.setReg_flt (s : State) (x : Nibble) (b : Byte) : (s.setReg x b).flt = s.flt := rfl
@[simp] theorem State.setReg_mem (s : State) (x : Nibble) (b : Byte) : (s.setReg x b).mem = s.mem := rfl
@[simp] theorem State.setReg_epoch (s : State) (x : Nibble) (b : Byte) : (s.setReg x b).epoch = s.epoch := rfl
@[simp] theorem State.setReg_glyphs (s : State) (x : Nibble) (b : Byte) : (s.setReg x b).glyphs = s.glyphs := rfl
@[simp] theorem State.setReg_inputs (s : State) (x : Nibble) (b : Byte) : (s.setReg x b).inputs = s.inputs := rfl
@[simp] theorem State.setReg_tick (s : State) (x : Nibble) (b : Byte) : (s.setReg x b).tick = s.tick := rfl

/-! ### `setPc` -/

@[simp] theorem State.setPc_v (s : State) (a : Word) : (s.setPc a).v = s.v := rfl
@[simp] theorem State.setPc_i (s : State) (a : Word) : (s.setPc a).i = s.i := rfl
@[simp] theorem State.setPc_pc (s : State) (a : Word) : (s.setPc a).pc = a := rfl
@[simp] theorem State.setPc_stk (s : State) (a : Word) : (s.setPc a).stk = s.stk := rfl
@[simp] theorem State.setPc_sc (s : State) (a : Word) : (s.setPc a).sc = s.sc := rfl
@[simp] theorem State.setPc_dt (s : State) (a : Word) : (s.setPc a).dt = s.dt := rfl
@[simp] theorem State.setPc_st (s : State) (a : Word) : (s.setPc a).st = s.st := rfl
@[simp] theorem State.setPc_disp (s : State) (a : Word) : (s.setPc a).disp = s.disp := rfl
@[simp] theorem State.setPc_ir (s : State) (a : Word) : (s.setPc a).ir = s.ir := rfl
@[simp] theorem State.setPc_flt (s : State) (a : Word) : (s.setPc a).flt = s.flt := rfl
@[simp] theorem State.setPc_mem (s : State) (a : Word) : (s.setPc a).mem = s.mem := rfl
@[simp] theorem State.setPc_epoch (s : State) (a : Word) : (s.setPc a).epoch = s.epoch := rfl
@[simp] theorem State.setPc_glyphs (s : State) (a : Word) : (s.setPc a).glyphs = s.glyphs := rfl
@[simp] theorem State.setPc_inputs (s : State) (a : Word) : (s.setPc a).inputs = s.inputs := rfl
@[simp] theorem State.setPc_tick (s : State) (a : Word) : (s.setPc a).tick = s.tick := rfl

/-! ### `setI` -/

@[simp] theorem State.setI_v (s : State) (a : Word) : (s.setI a).v = s.v := rfl
@[simp] theorem State.setI_i (s : State) (a : Word) : (s.setI a).i = a := rfl
@[simp] theorem State.setI_pc (s : State) (a : Word) : (s.setI a).pc = s.pc := rfl
@[simp] theorem State.setI_stk (s : State) (a : Word) : (s.setI a).stk = s.stk := rfl
@[simp] theorem State.setI_sc (s : State) (a : Word) : (s.setI a).sc = s.sc := rfl
@[simp] theorem State.setI_dt (s : State) (a : Word) : (s.setI a).dt = s.dt := rfl
@[simp] theorem State.setI_st (s : State) (a : Word) : (s.setI a).st = s.st := rfl
@[simp] theorem State.setI_disp (s : State) (a : Word) : (s.setI a).disp = s.disp := rfl
@[simp] theorem State.setI_ir (s : State) (a : Word) : (s.setI a).ir = s.ir := rfl
@[simp] theorem State.setI_flt (s : State) (a : Word) : (s.setI a).flt = s.flt := rfl
@[simp] theorem State.setI_mem (s : State) (a : Word) : (s.setI a).mem = s.mem := rfl
@[simp] theorem State.setI_epoch (s : State) (a : Word) : (s.setI a).epoch = s.epoch := rfl
@[simp] theorem State.setI_glyphs (s : State) (a : Word) : (s.setI a).glyphs = s.glyphs := rfl
@[simp] theorem State.setI_inputs (s : State) (a : Word) : (s.setI a).inputs = s.inputs := rfl
@[simp] theorem State.setI_tick (s : State) (a : Word) : (s.setI a).tick = s.tick := rfl

/-! ### `setDt` -/

@[simp] theorem State.setDt_v (s : State) (b : Byte) : (s.setDt b).v = s.v := rfl
@[simp] theorem State.setDt_i (s : State) (b : Byte) : (s.setDt b).i = s.i := rfl
@[simp] theorem State.setDt_pc (s : State) (b : Byte) : (s.setDt b).pc = s.pc := rfl
@[simp] theorem State.setDt_stk (s : State) (b : Byte) : (s.setDt b).stk = s.stk := rfl
@[simp] theorem State.setDt_sc (s : State) (b : Byte) : (s.setDt b).sc = s.sc := rfl
@[simp] theorem State.setDt_dt (s : State) (b : Byte) : (s.setDt b).dt = b := rfl
@[simp] theorem State.setDt_st (s : State) (b : Byte) : (s.setDt b).st = s.st := rfl
@[simp] theorem State.setDt_disp (s : State) (b : Byte) : (s.setDt b).disp = s.disp := rfl
@[simp] theorem State.setDt_ir (s : State) (b : Byte) : (s.setDt b).ir = s.ir := rfl
@[simp] theorem State.setDt_flt (s : State) (b : Byte) : (s.setDt b).flt = s.flt := rfl
@[simp] theorem State.setDt_mem (s : State) (b : Byte) : (s.setDt b).mem = s.mem := rfl
@[simp] theorem State.setDt_epoch (s : State) (b : Byte) : (s.setDt b).epoch = s.epoch := rfl
@[simp] theorem State.setDt_glyphs (s : State) (b : Byte) : (s.setDt b).glyphs = s.glyphs := rfl
@[simp] theorem State.setDt_inputs (s : State) (b : Byte) : (s.setDt b).inputs = s.inputs := rfl
@[simp] theorem State.setDt_tick (s : State) (b : Byte) : (s.setDt b).tick = s.tick := rfl

/-! ### `setSt` -/

@[simp] theorem State.setSt_v (s : State) (b : Byte) : (s.setSt b).v = s.v := rfl
@[simp] theorem State.setSt_i (s : State) (b : Byte) : (s.setSt b).i = s.i := rfl
@[simp] theorem State.setSt_pc (s : State) (b : Byte) : (s.setSt b).pc = s.pc := rfl
@[simp] theorem State.setSt_stk (s : State) (b : Byte) : (s.setSt b).stk = s.stk := rfl
@[simp] theorem State.setSt_sc (s : State) (b : Byte) : (s.setSt b).sc = s.sc := rfl
@[simp] theorem State.setSt_dt (s : State) (b : Byte) : (s.setSt b).dt = s.dt := rfl
@[simp] theorem State.setSt_st (s : State) (b : Byte) : (s.setSt b).st = b := rfl
@[simp] theorem State.setSt_disp (s : State) (b : Byte) : (s.setSt b).disp = s.disp := rfl
@[simp] theorem State.setSt_ir (s : State) (b : Byte) : (s.setSt b).ir = s.ir := rfl
@[simp] theorem State.setSt_flt (s : State) (b : Byte) : (s.setSt b).flt = s.flt := rfl
@[simp] theorem State.setSt_mem (s : State) (b : Byte) : (s.setSt b).mem = s.mem := rfl
@[simp] theorem State.setSt_epoch (s : State) (b : Byte) : (s.setSt b).epoch = s.epoch := rfl
@[simp] theorem State.setSt_glyphs (s : State) (b : Byte) : (s.setSt b).glyphs = s.glyphs := rfl
@[simp] theorem State.setSt_inputs (s : State) (b : Byte) : (s.setSt b).inputs = s.inputs := rfl
@[simp] theorem State.setSt_tick (s : State) (b : Byte) : (s.setSt b).tick = s.tick := rfl

/-! ### `setDisp` -/

@[simp] theorem State.setDisp_v (s : State) (d : Display) : (s.setDisp d).v = s.v := rfl
@[simp] theorem State.setDisp_i (s : State) (d : Display) : (s.setDisp d).i = s.i := rfl
@[simp] theorem State.setDisp_pc (s : State) (d : Display) : (s.setDisp d).pc = s.pc := rfl
@[simp] theorem State.setDisp_stk (s : State) (d : Display) : (s.setDisp d).stk = s.stk := rfl
@[simp] theorem State.setDisp_sc (s : State) (d : Display) : (s.setDisp d).sc = s.sc := rfl
@[simp] theorem State.setDisp_dt (s : State) (d : Display) : (s.setDisp d).dt = s.dt := rfl
@[simp] theorem State.setDisp_st (s : State) (d : Display) : (s.setDisp d).st = s.st := rfl
@[simp] theorem State.setDisp_disp (s : State) (d : Display) : (s.setDisp d).disp = d := rfl
@[simp] theorem State.setDisp_ir (s : State) (d : Display) : (s.setDisp d).ir = s.ir := rfl
@[simp] theorem State.setDisp_flt (s : State) (d : Display) : (s.setDisp d).flt = s.flt := rfl
@[simp] theorem State.setDisp_mem (s : State) (d : Display) : (s.setDisp d).mem = s.mem := rfl
@[simp] theorem State.setDisp_epoch (s : State) (d : Display) : (s.setDisp d).epoch = s.epoch := rfl
@[simp] theorem State.setDisp_glyphs (s : State) (d : Display) : (s.setDisp d).glyphs = s.glyphs := rfl
@[simp] theorem State.setDisp_inputs (s : State) (d : Display) : (s.setDisp d).inputs = s.inputs := rfl
@[simp] theorem State.setDisp_tick (s : State) (d : Display) : (s.setDisp d).tick = s.tick := rfl

/-! ### `nextInput` -/

@[simp] theorem State.nextInput_v (s : State) : s.nextInput.v = s.v := rfl
@[simp] theorem State.nextInput_i (s : State) : s.nextInput.i = s.i := rfl
@[simp] theorem State.nextInput_pc (s : State) : s.nextInput.pc = s.pc := rfl
@[simp] theorem State.nextInput_stk (s : State) : s.nextInput.stk = s.stk := rfl
@[simp] theorem State.nextInput_sc (s : State) : s.nextInput.sc = s.sc := rfl
@[simp] theorem State.nextInput_dt (s : State) : s.nextInput.dt = s.dt := rfl
@[simp] theorem State.nextInput_st (s : State) : s.nextInput.st = s.st := rfl
@[simp] theorem State.nextInput_disp (s : State) : s.nextInput.disp = s.disp := rfl
@[simp] theorem State.nextInput_ir (s : State) : s.nextInput.ir = s.ir := rfl
@[simp] theorem State.nextInput_flt (s : State) : s.nextInput.flt = s.flt := rfl
@[simp] theorem State.nextInput_mem (s : State) : s.nextInput.mem = s.mem := rfl
@[simp] theorem State.nextInput_epoch (s : State) : s.nextInput.epoch = s.epoch := rfl
@[simp] theorem State.nextInput_glyphs (s : State) : s.nextInput.glyphs = s.glyphs := rfl
@[simp] theorem State.nextInput_inputs (s : State) : s.nextInput.inputs = s.inputs.tail := rfl
@[simp] theorem State.nextInput_tick (s : State) : s.nextInput.tick = s.tick + 1 := rfl

/-! ### `latch` -/

@[simp] theorem State.latch_v (s : State) (a : Word) (w : Option Word) (r : Raised) : (s.latch a w r).v = s.v := rfl
@[simp] theorem State.latch_i (s : State) (a : Word) (w : Option Word) (r : Raised) : (s.latch a w r).i = s.i := rfl
@[simp] theorem State.latch_pc (s : State) (a : Word) (w : Option Word) (r : Raised) : (s.latch a w r).pc = a := rfl
@[simp] theorem State.latch_stk (s : State) (a : Word) (w : Option Word) (r : Raised) : (s.latch a w r).stk = s.stk := rfl
@[simp] theorem State.latch_sc (s : State) (a : Word) (w : Option Word) (r : Raised) : (s.latch a w r).sc = s.sc := rfl
@[simp] theorem State.latch_dt (s : State) (a : Word) (w : Option Word) (r : Raised) : (s.latch a w r).dt = s.dt := rfl
@[simp] theorem State.latch_st (s : State) (a : Word) (w : Option Word) (r : Raised) : (s.latch a w r).st = s.st := rfl
@[simp] theorem State.latch_disp (s : State) (a : Word) (w : Option Word) (r : Raised) : (s.latch a w r).disp = s.disp := rfl
@[simp] theorem State.latch_ir (s : State) (a : Word) (w : Option Word) (r : Raised) : (s.latch a w r).ir = s.ir := rfl
@[simp] theorem State.latch_flt (s : State) (a : Word) (w : Option Word) (r : Raised) : (s.latch a w r).flt = some ⟨r.cause, a, w, r.info⟩ := rfl
@[simp] theorem State.latch_mem (s : State) (a : Word) (w : Option Word) (r : Raised) : (s.latch a w r).mem = s.mem := rfl
@[simp] theorem State.latch_epoch (s : State) (a : Word) (w : Option Word) (r : Raised) : (s.latch a w r).epoch = s.epoch := rfl
@[simp] theorem State.latch_glyphs (s : State) (a : Word) (w : Option Word) (r : Raised) : (s.latch a w r).glyphs = s.glyphs := rfl
@[simp] theorem State.latch_inputs (s : State) (a : Word) (w : Option Word) (r : Raised) : (s.latch a w r).inputs = s.inputs := rfl
@[simp] theorem State.latch_tick (s : State) (a : Word) (w : Option Word) (r : Raised) : (s.latch a w r).tick = s.tick := rfl

/-! ### `takeFault` -/

@[simp] theorem State.takeFault_v (s : State) (r : Raised) : (s.takeFault r).v = s.v := rfl
@[simp] theorem State.takeFault_i (s : State) (r : Raised) : (s.takeFault r).i = s.i := rfl
@[simp] theorem State.takeFault_pc (s : State) (r : Raised) : (s.takeFault r).pc = s.pc - 2#16 := rfl
@[simp] theorem State.takeFault_stk (s : State) (r : Raised) : (s.takeFault r).stk = s.stk := rfl
@[simp] theorem State.takeFault_sc (s : State) (r : Raised) : (s.takeFault r).sc = s.sc := rfl
@[simp] theorem State.takeFault_dt (s : State) (r : Raised) : (s.takeFault r).dt = s.dt := rfl
@[simp] theorem State.takeFault_st (s : State) (r : Raised) : (s.takeFault r).st = s.st := rfl
@[simp] theorem State.takeFault_disp (s : State) (r : Raised) : (s.takeFault r).disp = s.disp := rfl
@[simp] theorem State.takeFault_ir (s : State) (r : Raised) : (s.takeFault r).ir = s.ir := rfl
@[simp] theorem State.takeFault_flt (s : State) (r : Raised) : (s.takeFault r).flt = some ⟨r.cause, s.pc - 2#16, some s.ir, r.info⟩ := rfl
@[simp] theorem State.takeFault_mem (s : State) (r : Raised) : (s.takeFault r).mem = s.mem := rfl
@[simp] theorem State.takeFault_epoch (s : State) (r : Raised) : (s.takeFault r).epoch = s.epoch := rfl
@[simp] theorem State.takeFault_glyphs (s : State) (r : Raised) : (s.takeFault r).glyphs = s.glyphs := rfl
@[simp] theorem State.takeFault_inputs (s : State) (r : Raised) : (s.takeFault r).inputs = s.inputs := rfl
@[simp] theorem State.takeFault_tick (s : State) (r : Raised) : (s.takeFault r).tick = s.tick := rfl

/-! ### `fetched` -/

@[simp] theorem State.fetched_v (s : State) (w : Word) : (s.fetched w).v = s.v := rfl
@[simp] theorem State.fetched_i (s : State) (w : Word) : (s.fetched w).i = s.i := rfl
@[simp] theorem State.fetched_pc (s : State) (w : Word) : (s.fetched w).pc = s.pc + 2#16 := rfl
@[simp] theorem State.fetched_stk (s : State) (w : Word) : (s.fetched w).stk = s.stk := rfl
@[simp] theorem State.fetched_sc (s : State) (w : Word) : (s.fetched w).sc = s.sc := rfl
@[simp] theorem State.fetched_dt (s : State) (w : Word) : (s.fetched w).dt = s.dt := rfl
@[simp] theorem State.fetched_st (s : State) (w : Word) : (s.fetched w).st = s.st := rfl
@[simp] theorem State.fetched_disp (s : State) (w : Word) : (s.fetched w).disp = s.disp := rfl
@[simp] theorem State.fetched_ir (s : State) (w : Word) : (s.fetched w).ir = w := rfl
@[simp] theorem State.fetched_flt (s : State) (w : Word) : (s.fetched w).flt = s.flt := rfl
@[simp] theorem State.fetched_mem (s : State) (w : Word) : (s.fetched w).mem = s.mem := rfl
@[simp] theorem State.fetched_epoch (s : State) (w : Word) : (s.fetched w).epoch = s.epoch := rfl
@[simp] theorem State.fetched_glyphs (s : State) (w : Word) : (s.fetched w).glyphs = s.glyphs := rfl
@[simp] theorem State.fetched_inputs (s : State) (w : Word) : (s.fetched w).inputs = s.inputs := rfl
@[simp] theorem State.fetched_tick (s : State) (w : Word) : (s.fetched w).tick = s.tick := rfl

/-! ### `decayTimers` -/

@[simp] theorem State.decayTimers_v (s : State) : s.decayTimers.v = s.v := rfl
@[simp] theorem State.decayTimers_i (s : State) : s.decayTimers.i = s.i := rfl
@[simp] theorem State.decayTimers_pc (s : State) : s.decayTimers.pc = s.pc := rfl
@[simp] theorem State.decayTimers_stk (s : State) : s.decayTimers.stk = s.stk := rfl
@[simp] theorem State.decayTimers_sc (s : State) : s.decayTimers.sc = s.sc := rfl
@[simp] theorem State.decayTimers_dt (s : State) : s.decayTimers.dt = decay s.dt := rfl
@[simp] theorem State.decayTimers_st (s : State) : s.decayTimers.st = decay s.st := rfl
@[simp] theorem State.decayTimers_disp (s : State) : s.decayTimers.disp = s.disp := rfl
@[simp] theorem State.decayTimers_ir (s : State) : s.decayTimers.ir = s.ir := rfl
@[simp] theorem State.decayTimers_flt (s : State) : s.decayTimers.flt = s.flt := rfl
@[simp] theorem State.decayTimers_mem (s : State) : s.decayTimers.mem = s.mem := rfl
@[simp] theorem State.decayTimers_epoch (s : State) : s.decayTimers.epoch = s.epoch := rfl
@[simp] theorem State.decayTimers_glyphs (s : State) : s.decayTimers.glyphs = s.glyphs := rfl
@[simp] theorem State.decayTimers_inputs (s : State) : s.decayTimers.inputs = s.inputs := rfl
@[simp] theorem State.decayTimers_tick (s : State) : s.decayTimers.tick = s.tick := rfl

/-! ### `skipIf`: only `pc` -/

@[simp] theorem State.skipIf_v (s : State) (c : Bool) : (s.skipIf c).v = s.v := by cases c <;> rfl
@[simp] theorem State.skipIf_i (s : State) (c : Bool) : (s.skipIf c).i = s.i := by cases c <;> rfl
@[simp] theorem State.skipIf_stk (s : State) (c : Bool) : (s.skipIf c).stk = s.stk := by cases c <;> rfl
@[simp] theorem State.skipIf_sc (s : State) (c : Bool) : (s.skipIf c).sc = s.sc := by cases c <;> rfl
@[simp] theorem State.skipIf_dt (s : State) (c : Bool) : (s.skipIf c).dt = s.dt := by cases c <;> rfl
@[simp] theorem State.skipIf_st (s : State) (c : Bool) : (s.skipIf c).st = s.st := by cases c <;> rfl
@[simp] theorem State.skipIf_disp (s : State) (c : Bool) : (s.skipIf c).disp = s.disp := by cases c <;> rfl
@[simp] theorem State.skipIf_ir (s : State) (c : Bool) : (s.skipIf c).ir = s.ir := by cases c <;> rfl
@[simp] theorem State.skipIf_flt (s : State) (c : Bool) : (s.skipIf c).flt = s.flt := by cases c <;> rfl
@[simp] theorem State.skipIf_mem (s : State) (c : Bool) : (s.skipIf c).mem = s.mem := by cases c <;> rfl
@[simp] theorem State.skipIf_epoch (s : State) (c : Bool) : (s.skipIf c).epoch = s.epoch := by cases c <;> rfl
@[simp] theorem State.skipIf_glyphs (s : State) (c : Bool) : (s.skipIf c).glyphs = s.glyphs := by cases c <;> rfl
@[simp] theorem State.skipIf_inputs (s : State) (c : Bool) : (s.skipIf c).inputs = s.inputs := by cases c <;> rfl
@[simp] theorem State.skipIf_tick (s : State) (c : Bool) : (s.skipIf c).tick = s.tick := by cases c <;> rfl
@[simp] theorem State.skipIf_pc (s : State) (c : Bool) : (s.skipIf c).pc = if c then s.pc + 2#16 else s.pc := by cases c <;> rfl

end Sys2Proof.Machine
end

