-- ==== Sys2Proof/Laws/Access.lean ====
section
/-! SUPPORT. The memory accesses of the machine: one lemma each for what a block read and a block write answer, inside the
space and across its end (spec/20_memory.md R52). -/

namespace Sys2Proof.Machine

/-! ## Reading one byte -/

@[simp] theorem State.readByte_setReg (s : State) (x : Nibble) (b : Byte) (a : Nat) :
    (s.setReg x b).readByte a = s.readByte a := rfl
@[simp] theorem State.readByte_setPc (s : State) (p : Word) (a : Nat) : (s.setPc p).readByte a = s.readByte a := rfl
@[simp] theorem State.readByte_setI (s : State) (p : Word) (a : Nat) : (s.setI p).readByte a = s.readByte a := rfl
@[simp] theorem State.readByte_setDisp (s : State) (d : Display) (a : Nat) :
    (s.setDisp d).readByte a = s.readByte a := rfl
@[simp] theorem State.readByte_fetched (s : State) (w : Word) (a : Nat) : (s.fetched w).readByte a = s.readByte a := rfl
@[simp] theorem State.readByte_decayTimers (s : State) (a : Nat) : s.decayTimers.readByte a = s.readByte a := rfl
@[simp] theorem State.readByte_nextInput (s : State) (a : Nat) : s.nextInput.readByte a = s.readByte a := rfl

/-- States with the same memory, Reset number and glyph table read alike. -/
theorem State.readByte_congr {s t : State} (hm : t.mem = s.mem) (he : t.epoch = s.epoch) (hg : t.glyphs = s.glyphs) (a : Nat) :
    t.readByte a = s.readByte a := by simp [State.readByte, hm, he, hg]

/-! ## The loader's byte -/

/-- What an accepted write of the loader is. -/
theorem State.loaderWrite_inv {s t : State} {a : Nat} {b : Byte} (h : s.loaderWrite a b = some t) :
    0x200 ≤ a ∧ a < 4096 ∧ t = { s with mem := storeByte s.glyphs s.mem a b } := by
  rw [State.loaderWrite] at h
  split at h
  · rename_i ha; cases h; exact ⟨ha.1, ha.2, rfl⟩
  · cases h

/-! ## Blocks of bytes -/

/-- What a block store leaves at every address. -/
theorem byteAt_storeBytes (g : GlyphTable) (epoch : Nat) (bs : List Byte) (m : Memory) (a c : Nat) :
    byteAt g epoch (storeBytes g m a bs) c =
      if a ≤ c then (bs[c - a]?).getD (byteAt g epoch m c) else byteAt g epoch m c := by
  induction bs generalizing m a with
  | nil => simp [storeBytes]
  | cons b bs ih =>
    rw [storeBytes, ih, byteAt_storeByte]
    rcases Nat.lt_trichotomy c a with h | h | h
    · simp [Nat.not_le.mpr h, Nat.ne_of_lt h, show ¬ a + 1 ≤ c by omega]
    · simp [h]
    · obtain ⟨d, hd⟩ : ∃ d, c - a = d + 1 := ⟨c - a - 1, by omega⟩
      simp [hd, show a + 1 ≤ c by omega, show a ≤ c by omega, show c ≠ a by omega, show c - (a + 1) = d by omega]

/-- A block store inside the space keeps the canonical form. -/
theorem storeBytes_keeps_wf {g : GlyphTable} (bs : List Byte) {m : Memory} {a : Nat} (h : a + bs.length ≤ 4096)
    (hm : Memory.wf m g = true) : Memory.wf (storeBytes g m a bs) g = true := by
  induction bs generalizing m a with
  | nil => exact hm
  | cons b bs ih =>
    rw [List.length_cons] at h
    exact ih (by omega) (storeByte_keeps_wf b (by omega) hm)

/-- A block write that ends inside the space stores every byte and touches memory only. -/
theorem State.writeBytes_ok (bs : List Byte) (s : State) (a : Nat) (h : a + bs.length ≤ 4096) :
    s.writeBytes a bs = .ok { s with mem := storeBytes s.glyphs s.mem a bs } := by
  induction bs generalizing s a with
  | nil => rfl
  | cons b bs ih =>
    rw [List.length_cons] at h
    rw [State.writeBytes, State.memWrite, if_pos (by simp only [Config.memSize]; omega)]
    exact ih _ (a + 1) (by omega)

/-- A block write that crosses the end of the space faults at the lowest address beyond it. -/
theorem State.writeBytes_error (bs : List Byte) (s : State) (a : Nat) (hne : bs ≠ []) (h : 4096 < a + bs.length) :
    s.writeBytes a bs = .error (.memRange (max a 4096)) := by
  induction bs generalizing s a with
  | nil => exact absurd rfl hne
  | cons b bs ih =>
    rw [List.length_cons] at h
    rw [State.writeBytes, State.memWrite]
    by_cases ha : a < 4096
    · rw [if_pos ha]
      have hbs : bs ≠ [] := by rintro rfl; simp at h; omega
      have := ih { s with mem := storeByte s.glyphs s.mem a b } (a + 1) hbs (by omega)
      rw [show max a 4096 = max (a + 1) 4096 by omega]
      exact this
    · rw [if_neg ha, show max a 4096 = a by omega]

/-- A block read that ends inside the space gives the bytes in address order. -/
theorem State.readBytes_ok (n : Nat) (s : State) (a : Nat) (h : n = 0 ∨ a + n ≤ 4096) :
    s.readBytes a n = .ok ((List.range n).map (fun k => s.readByte (a + k))) := by
  induction n generalizing a with
  | zero => rfl
  | succ n ih =>
    rw [State.readBytes, State.memRead, if_pos (by simp only [Config.memSize]; omega)]
    dsimp only
    rw [ih (a + 1) (by omega), List.range_succ_eq_map]
    simp [Function.comp_def, Nat.add_comm, Nat.add_left_comm]

/-- A block read that crosses the end of the space faults at the lowest address beyond it. -/
theorem State.readBytes_error (n : Nat) (s : State) (a : Nat) (hn : n ≠ 0) (h : 4096 < a + n) :
    s.readBytes a n = .error (.memRange (max a 4096)) := by
  induction n generalizing a with
  | zero => exact absurd rfl hn
  | succ n ih =>
    rw [State.readBytes, State.memRead]
    by_cases ha : a < 4096
    · rw [if_pos ha]
      dsimp only
      rw [ih (a + 1) (by omega) (by omega), show max a 4096 = max (a + 1) 4096 by omega]
    · rw [if_neg ha, show max a 4096 = a by omega]

end Sys2Proof.Machine
end

