-- ==== Sys2Proof/Laws/Display.lean ====
section
/-! SUPPORT. Pixels: reading after toggling, and what the scan of Draw answers (spec/45_display.md R151). -/

namespace Sys2Proof.Machine

/-- A pixel as a bit of its row. -/
theorem pixelOf_eq (d : Display) (idx : Nat) (h : idx / 64 < 32) :
    pixelOf d idx = (d[idx / 64]'h).getLsbD (idx % 64) := by
  simp only [pixelOf, Config.dispW]
  rw [Vector.getElem?_eq_getElem h]

/-- Toggling writes one row. -/
theorem togglePixel_eq (d : Display) (idx : Nat) (h : idx / 64 < 32) :
    togglePixel d idx = d.set (idx / 64) ((d[idx / 64]'h) ^^^ (1#64 <<< (idx % 64))) h := by
  simp only [togglePixel, Config.dispW]
  rw [Vector.getElem?_eq_getElem h]
  simp [Vector.setIfInBounds, Vector.set, Array.setIfInBounds, h, Config.dispH]

/-- Beyond the last cell there is no pixel. -/
theorem pixelOf_beyond (d : Display) (idx : Nat) (h : 2048 ≤ idx) : pixelOf d idx = false := by
  simp only [pixelOf, Config.dispW]
  rw [Vector.getElem?_eq_none (by simp only [Config.dispH]; omega)]

/-- The one bit of a shifted one. -/
theorem getLsbD_one_shiftLeft (j k : Nat) (hk : k < 64) : (1#64 <<< j).getLsbD k = decide (k = j) := by
  simp only [BitVec.getLsbD_shiftLeft, BitVec.getLsbD_one]
  by_cases h : k = j
  · simp [h]; omega
  · by_cases hlt : k < j <;> simp [h, hlt]; omega

/-- Toggling a pixel turns it over and leaves every other pixel alone. -/
theorem pixelOf_togglePixel (d : Display) (idx c : Nat) (h : idx < 2048) :
    pixelOf (togglePixel d idx) c = (pixelOf d c ^^ decide (c = idx)) := by
  by_cases hc : c < 2048
  · have hi : idx / 64 < 32 := by omega
    have hc' : c / 64 < 32 := by omega
    rw [togglePixel_eq d idx hi, pixelOf_eq _ c hc', pixelOf_eq _ c hc', Vector.getElem_set]
    by_cases hrow : idx / 64 = c / 64
    · have hcol : (c % 64 = idx % 64) = (c = idx) := propext (by omega)
      simp only [hrow, if_true, BitVec.getLsbD_xor, getLsbD_one_shiftLeft _ _ (Nat.mod_lt c (by omega)), hcol]
    · have : c ≠ idx := by rintro rfl; exact hrow rfl
      simp [hrow, this]
  · rw [pixelOf_beyond _ c (by omega), pixelOf_beyond _ c (by omega)]
    simp; omega

/-- A pixel of the cleared display is off. -/
theorem pixelOf_clearDisplay (idx : Nat) : pixelOf clearDisplay idx = false := by
  by_cases h : idx / 64 < 32
  · rw [pixelOf_eq _ _ h]; simp [clearDisplay]
  · exact pixelOf_beyond _ _ (by omega)

/-- Displays with the same pixels are the same. -/
theorem display_ext {d e : Display} (h : ∀ idx, idx < 2048 → pixelOf d idx = pixelOf e idx) : d = e := by
  apply Vector.ext
  intro r hr
  apply BitVec.eq_of_getLsbD_eq
  intro c hc
  have hd : (r * 64 + c) / 64 = r := by simp only [Config.dispW] at hc; omega
  have hm : (r * 64 + c) % 64 = c := by simp only [Config.dispW] at hc; omega
  have := h (r * 64 + c) (by simp only [Config.dispH, Config.dispW] at hr hc; omega)
  rw [pixelOf_eq _ _ (by simp only [Config.dispH] at hr; omega),
    pixelOf_eq _ _ (by simp only [Config.dispH] at hr; omega)] at this
  simpa only [hd, hm] using this

/-! ## The scan -/

/-- The set bits of a sprite row. -/
theorem mem_rowPixels (base : Nat) (row : Byte) (idx : Nat) :
    idx ∈ rowPixels base row ↔ ∃ c, c < 8 ∧ row.getLsbD (7 - c) = true ∧ idx = base + c := by
  simp only [rowPixels, List.mem_map, List.mem_filter, List.mem_range]
  exact ⟨fun ⟨c, ⟨h1, h2⟩, h3⟩ => ⟨c, h1, h2, h3.symm⟩, fun ⟨c, h1, h2, h3⟩ => ⟨c, ⟨h1, h2⟩, h3.symm⟩⟩

/-- The set bits of a sprite: row `r` of the list is drawn on display row `top + r`. -/
theorem mem_spritePixels (left : Nat) (rows : List Byte) (top idx : Nat) :
    idx ∈ spritePixels left top rows ↔
      ∃ r c, ∃ h : r < rows.length, c < 8 ∧ (rows[r]).getLsbD (7 - c) = true ∧ idx = (top + r) * 64 + (left + c) := by
  induction rows generalizing top with
  | nil => simp [spritePixels]
  | cons row rows ih =>
    simp only [spritePixels, List.mem_append, mem_rowPixels, ih, Config.dispW, List.length_cons]
    constructor
    · rintro (⟨c, hc, hb, rfl⟩ | ⟨r, c, h, hc, hb, rfl⟩)
      · exact ⟨0, c, by omega, hc, hb, by omega⟩
      · exact ⟨r + 1, c, by omega, hc, hb, by omega⟩
    · rintro ⟨r, c, h, hc, hb, rfl⟩
      cases r with
      | zero => exact .inl ⟨c, hc, hb, by omega⟩
      | succ r => exact .inr ⟨r, c, by omega, hc, hb, by omega⟩

/-- The pixels of a sprite row rise. -/
theorem rowPixels_sorted (base : Nat) (row : Byte) : (rowPixels base row).Pairwise (· < ·) := by
  unfold rowPixels
  rw [List.pairwise_map]
  have : (List.range 8).Pairwise (fun a b => base + a < base + b) :=
    List.pairwise_lt_range.imp (fun h => Nat.add_lt_add_left h base)
  exact this.sublist List.filter_sublist

/-- The pixels of a sprite rise strictly in scan order, so no two of them coincide (R151 case f). -/
theorem spritePixels_sorted (left : Nat) (rows : List Byte) (top : Nat) :
    (spritePixels left top rows).Pairwise (· < ·) := by
  induction rows generalizing top with
  | nil => exact List.Pairwise.nil
  | cons row rows ih =>
    rw [spritePixels, List.pairwise_append]
    refine ⟨rowPixels_sorted _ _, ih _, ?_⟩
    intro a ha b hb
    simp only [mem_rowPixels, Config.dispW] at ha
    obtain ⟨c, hc, -, rfl⟩ := ha
    obtain ⟨r, c', h, hc', -, rfl⟩ := (mem_spritePixels _ _ _ _).mp hb
    omega

/-- The scan's next pixel. -/
theorem plotPixels_cons (p : Nat) (ps : List Nat) (d : Display) (hit : Bool) :
    plotPixels (p :: ps) d hit =
      if p < 2048 then plotPixels ps (togglePixel d p) (hit || pixelOf d p) else .error (.displayRange p) := rfl

/-- The scan of pixels that all lie on the display and never coincide: exactly they are toggled, and the collision flag
tells whether one of them was on. -/
theorem plotPixels_ok (ps : List Nat) (d : Display) (hit : Bool) (hps : ∀ p ∈ ps, p < 2048)
    (hd : ps.Pairwise (· < ·)) :
    ∃ e, plotPixels ps d hit = .ok (e, hit || ps.any (fun p => pixelOf d p)) ∧
      ∀ c, pixelOf e c = (pixelOf d c ^^ decide (c ∈ ps)) := by
  induction ps generalizing d hit with
  | nil => exact ⟨d, by simp [plotPixels], by simp⟩
  | cons p ps ih =>
    have hp : p < 2048 := hps p List.mem_cons_self
    obtain ⟨hlt, hd'⟩ := List.pairwise_cons.mp hd
    obtain ⟨e, he, hpix⟩ := ih (togglePixel d p) (hit || pixelOf d p) (fun q hq => hps q (List.mem_cons_of_mem _ hq)) hd'
    have same : ps.any (fun q => pixelOf (togglePixel d p) q) = ps.any (fun q => pixelOf d q) := by
      rw [Bool.eq_iff_iff]
      simp only [List.any_eq_true]
      constructor <;> rintro ⟨q, hq, h⟩ <;> refine ⟨q, hq, ?_⟩ <;>
        have hne : q ≠ p := Nat.ne_of_gt (hlt q hq)
      · simpa [pixelOf_togglePixel d p q hp, hne] using h
      · simpa [pixelOf_togglePixel d p q hp, hne] using h
    refine ⟨e, ?_, ?_⟩
    · rw [plotPixels_cons, if_pos hp, he, same, List.any_cons, Bool.or_assoc]
    · intro c
      rw [hpix, pixelOf_togglePixel d p c hp]
      by_cases hc : c = p
      · subst hc
        have : c ∉ ps := fun h => Nat.lt_irrefl _ (hlt c h)
        simp [this]
      · simp [hc]

/-- The scan stops at its first pixel beyond the last cell. -/
theorem plotPixels_error (ps : List Nat) (d : Display) (hit : Bool) (p : Nat) (hp : p ∈ ps) (hfar : 2048 ≤ p)
    (hfirst : ∀ q ∈ ps, 2048 ≤ q → p ≤ q) (hd : ps.Pairwise (· < ·)) :
    plotPixels ps d hit = .error (.displayRange p) := by
  induction ps generalizing d hit with
  | nil => exact absurd hp List.not_mem_nil
  | cons q ps ih =>
    obtain ⟨hlt, hd'⟩ := List.pairwise_cons.mp hd
    rw [plotPixels_cons]
    by_cases hq : q < 2048
    · rw [if_pos hq]
      have hmem : p ∈ ps := by
        rcases List.mem_cons.mp hp with rfl | h
        · omega
        · exact h
      exact ih _ _ hmem (fun r hr => hfirst r (List.mem_cons_of_mem _ hr)) hd'
    · rw [if_neg hq]
      have h1 := hfirst q List.mem_cons_self (by omega)
      rcases List.mem_cons.mp hp with rfl | h
      · rfl
      · have := hlt p h; omega

end Sys2Proof.Machine
end

