-- ==== Sys2Proof/Laws/Encoding.lean ====
section
/-! SUPPORT. The operand fields of an assembled word, and the bytes of a word. -/

namespace Sys2Proof

/-! ## Assembled words as numbers -/

theorem assemble_toNat (p x y n : Nibble) :
    (assemble p x y n).toNat = p.toNat * 4096 + x.toNat * 256 + y.toNat * 16 + n.toNat := by
  have := p.isLt; have := x.isLt; have := y.isLt; have := n.isLt
  simp only [assemble, BitVec.toNat_append]
  rw [← Nat.shiftLeft_add_eq_or_of_lt n.isLt, ← Nat.shiftLeft_add_eq_or_of_lt y.isLt,
    ← Nat.shiftLeft_add_eq_or_of_lt x.isLt]
  simp only [Nat.shiftLeft_eq]
  omega

theorem assembleKk_toNat (p x : Nibble) (kk : Byte) :
    (assembleKk p x kk).toNat = p.toNat * 4096 + x.toNat * 256 + kk.toNat := by
  have := p.isLt; have := x.isLt; have := kk.isLt
  simp only [assembleKk, BitVec.toNat_append]
  rw [← Nat.shiftLeft_add_eq_or_of_lt kk.isLt, ← Nat.shiftLeft_add_eq_or_of_lt x.isLt]
  simp only [Nat.shiftLeft_eq]
  omega

theorem assembleNnn_toNat (p : Nibble) (nnn : Addr12) :
    (assembleNnn p nnn).toNat = p.toNat * 4096 + nnn.toNat := by
  have := p.isLt; have := nnn.isLt
  simp only [assembleNnn, BitVec.toNat_append]
  rw [← Nat.shiftLeft_add_eq_or_of_lt nnn.isLt]
  simp only [Nat.shiftLeft_eq]

/-- A bit range of a vector, by the number it holds. -/
theorem extract_eq_of_toNat {n m : Nat} (w : BitVec n) (start : Nat) (v : BitVec m)
    (h : w.toNat / 2 ^ start % 2 ^ m = v.toNat) : w.extractLsb' start m = v := by
  apply BitVec.eq_of_toNat_eq
  rw [BitVec.extractLsb'_toNat, Nat.shiftRight_eq_div_pow, h]

/-! ## Fields of assembled words -/

@[simp] theorem fieldP_assemble (p x y n : Nibble) : fieldP (assemble p x y n) = p :=
  extract_eq_of_toNat _ _ _ (by
    have := p.isLt; have := x.isLt; have := y.isLt; have := n.isLt; rw [assemble_toNat]; omega)

@[simp] theorem fieldX_assemble (p x y n : Nibble) : fieldX (assemble p x y n) = x :=
  extract_eq_of_toNat _ _ _ (by
    have := p.isLt; have := x.isLt; have := y.isLt; have := n.isLt; rw [assemble_toNat]; omega)

@[simp] theorem fieldY_assemble (p x y n : Nibble) : fieldY (assemble p x y n) = y :=
  extract_eq_of_toNat _ _ _ (by
    have := p.isLt; have := x.isLt; have := y.isLt; have := n.isLt; rw [assemble_toNat]; omega)

@[simp] theorem fieldN_assemble (p x y n : Nibble) : fieldN (assemble p x y n) = n :=
  extract_eq_of_toNat _ _ _ (by
    have := p.isLt; have := x.isLt; have := y.isLt; have := n.isLt; rw [assemble_toNat]; omega)

@[simp] theorem fieldP_assembleKk (p x : Nibble) (kk : Byte) : fieldP (assembleKk p x kk) = p :=
  extract_eq_of_toNat _ _ _ (by
    have := p.isLt; have := x.isLt; have := kk.isLt; rw [assembleKk_toNat]; omega)

@[simp] theorem fieldX_assembleKk (p x : Nibble) (kk : Byte) : fieldX (assembleKk p x kk) = x :=
  extract_eq_of_toNat _ _ _ (by
    have := p.isLt; have := x.isLt; have := kk.isLt; rw [assembleKk_toNat]; omega)

@[simp] theorem fieldKk_assembleKk (p x : Nibble) (kk : Byte) : fieldKk (assembleKk p x kk) = kk :=
  extract_eq_of_toNat _ _ _ (by
    have := p.isLt; have := x.isLt; have := kk.isLt; rw [assembleKk_toNat]; omega)

/-- The low nibble of an XKK word, which keys the family 0xE, is that of its byte. -/
theorem fieldN_assembleKk (p x : Nibble) (kk : Byte) : fieldN (assembleKk p x kk) = kk.extractLsb' 0 4 :=
  extract_eq_of_toNat _ _ _ (by
    have := p.isLt; have := x.isLt; have := kk.isLt
    rw [assembleKk_toNat, BitVec.extractLsb'_toNat, Nat.shiftRight_zero]; omega)

@[simp] theorem fieldP_assembleNnn (p : Nibble) (nnn : Addr12) : fieldP (assembleNnn p nnn) = p :=
  extract_eq_of_toNat _ _ _ (by have := p.isLt; have := nnn.isLt; rw [assembleNnn_toNat]; omega)

@[simp] theorem fieldNnn_assembleNnn (p : Nibble) (nnn : Addr12) : fieldNnn (assembleNnn p nnn) = nnn :=
  extract_eq_of_toNat _ _ _ (by have := p.isLt; have := nnn.isLt; rw [assembleNnn_toNat]; omega)

/-! ## Bytes of a word -/

/-- A word is its two bytes put together, high byte first. -/
@[simp] theorem wordOfBytes_bytes (w : Word) : wordOfBytes (highByte w) (lowByte w) = w := by
  apply BitVec.eq_of_toNat_eq
  have := w.isLt
  simp only [wordOfBytes, highByte, lowByte, BitVec.toNat_append, BitVec.extractLsb'_toNat]
  rw [← Nat.shiftLeft_add_eq_or_of_lt (Nat.mod_lt _ (by omega))]
  simp only [Nat.shiftLeft_eq, Nat.shiftRight_eq_div_pow]
  omega

/-- A word masked by its high nibble, as a number: the mask keeps the primary key. -/
theorem and_F000_toNat (w : Word) : (w &&& 0xF000#16).toNat = w.toNat / 4096 * 4096 := by
  have h : w &&& 0xF000#16 = (w.ushiftRight 12) <<< 12 := by
    apply BitVec.eq_of_getLsbD_eq
    intro i hi
    simp only [BitVec.getLsbD_and, BitVec.getLsbD_shiftLeft, BitVec.ushiftRight_eq, BitVec.getLsbD_ushiftRight]
    interval_cases i <;> simp
  have := w.isLt
  rw [h]
  simp only [BitVec.toNat_shiftLeft, BitVec.ushiftRight_eq, BitVec.toNat_ushiftRight, Nat.shiftLeft_eq,
    Nat.shiftRight_eq_div_pow]
  omega

/-- A word masked by its low nibble keeps the last nibble. -/
theorem and_000F_toNat (w : Word) : (w &&& 0x000F#16).toNat = w.toNat % 16 := by
  rw [BitVec.toNat_and]
  exact Nat.and_two_pow_sub_one_eq_mod w.toNat 4

/-- A word masked by its low byte keeps the last byte. -/
theorem and_00FF_toNat (w : Word) : (w &&& 0x00FF#16).toNat = w.toNat % 256 := by
  rw [BitVec.toNat_and]
  exact Nat.and_two_pow_sub_one_eq_mod w.toNat 8

/-- The mask of the families 0x0, 0x8 and 0xE, and the direct keys' mask with it, split into their nibbles. -/
theorem and_F00F_toNat (w : Word) : (w &&& 0xF00F#16).toNat = w.toNat / 4096 * 4096 + w.toNat % 16 := by
  have h : w &&& 0xF00F#16 = (w &&& 0xF000#16) ||| (w &&& 0x000F#16) := by
    apply BitVec.eq_of_getLsbD_eq
    intro i hi
    simp only [BitVec.getLsbD_and, BitVec.getLsbD_or]
    interval_cases i <;> simp
  rw [h, BitVec.toNat_or, and_F000_toNat, and_000F_toNat]
  have := Nat.mod_lt w.toNat (show 0 < 16 by omega)
  rw [show w.toNat / 4096 * 4096 = (w.toNat / 4096 * 256) <<< 4 by rw [Nat.shiftLeft_eq]; omega,
    ← Nat.shiftLeft_add_eq_or_of_lt (by omega)]

/-- The mask of the family 0xF. -/
theorem and_F0FF_toNat (w : Word) : (w &&& 0xF0FF#16).toNat = w.toNat / 4096 * 4096 + w.toNat % 256 := by
  have h : w &&& 0xF0FF#16 = (w &&& 0xF000#16) ||| (w &&& 0x00FF#16) := by
    apply BitVec.eq_of_getLsbD_eq
    intro i hi
    simp only [BitVec.getLsbD_and, BitVec.getLsbD_or]
    interval_cases i <;> simp
  rw [h, BitVec.toNat_or, and_F000_toNat, and_00FF_toNat]
  have := Nat.mod_lt w.toNat (show 0 < 256 by omega)
  rw [show w.toNat / 4096 * 4096 = (w.toNat / 4096 * 16) <<< 8 by rw [Nat.shiftLeft_eq]; omega,
    ← Nat.shiftLeft_add_eq_or_of_lt (by omega)]

end Sys2Proof
end

