-- ==== Sys2Proof/Laws/Registers.lean ====
section
/-! SUPPORT. The register file: reading after writing, and the block load. -/

namespace Sys2Proof.Machine

/-- Two states with the same register file read alike. -/
theorem State.reg_congr {s t : State} (h : t.v = s.v) (r : Nibble) : t.reg r = s.reg r := by
  simp [State.reg, h]

@[simp] theorem State.reg_setReg (s : State) (x r : Nibble) (b : Byte) :
    (s.setReg x b).reg r = if r = x then b else s.reg r := by
  simp only [State.reg, State.setReg_v, Vector.getElem_set]
  by_cases h : r = x
  · simp [h]
  · have : x.toNat ≠ r.toNat := fun e => h (BitVec.eq_of_toNat_eq e.symm)
    simp [h, this]

@[simp] theorem State.reg_setFlag (s : State) (r : Nibble) (b : Byte) :
    (s.setFlag b).reg r = if r = 0xF#4 then b else s.reg r := State.reg_setReg s _ r b

@[simp] theorem State.reg_setPc (s : State) (a : Word) (r : Nibble) : (s.setPc a).reg r = s.reg r := rfl
@[simp] theorem State.reg_setI (s : State) (a : Word) (r : Nibble) : (s.setI a).reg r = s.reg r := rfl
@[simp] theorem State.reg_setDt (s : State) (b : Byte) (r : Nibble) : (s.setDt b).reg r = s.reg r := rfl
@[simp] theorem State.reg_setSt (s : State) (b : Byte) (r : Nibble) : (s.setSt b).reg r = s.reg r := rfl
@[simp] theorem State.reg_setDisp (s : State) (d : Display) (r : Nibble) : (s.setDisp d).reg r = s.reg r := rfl
@[simp] theorem State.reg_fetched (s : State) (w : Word) (r : Nibble) : (s.fetched w).reg r = s.reg r := rfl
@[simp] theorem State.reg_nextInput (s : State) (r : Nibble) : s.nextInput.reg r = s.reg r := rfl
@[simp] theorem State.reg_decayTimers (s : State) (r : Nibble) : s.decayTimers.reg r = s.reg r := rfl

/-- A block load changes the register file only. -/
theorem State.setRegsFrom_frame (bs : List Byte) (s : State) (k : Nat) :
    s.setRegsFrom k bs = { s with v := (s.setRegsFrom k bs).v } := by
  induction bs generalizing s k with
  | nil => rfl
  | cons b bs ih => rw [State.setRegsFrom, ih]

/-- A block load gives register `k + j` the byte `j` and leaves every other register alone. -/
theorem State.reg_setRegsFrom (bs : List Byte) (s : State) (k : Nat) (r : Nibble) :
    (s.setRegsFrom k bs).reg r =
      if k ≤ r.toNat then (bs[r.toNat - k]?).getD (s.reg r) else s.reg r := by
  induction bs generalizing s k with
  | nil => simp [State.setRegsFrom]
  | cons b bs ih =>
    rw [State.setRegsFrom, ih]
    have set_reg : (State.reg { s with v := s.v.setIfInBounds k b } r) = if r.toNat = k then b else s.reg r := by
      simp only [State.reg, Vector.getElem_setIfInBounds]
      by_cases h : r.toNat = k
      · simp [h]
      · simp [h, Ne.symm h]
    rw [set_reg]
    rcases Nat.lt_trichotomy r.toNat k with h | h | h
    · simp [Nat.not_le.mpr h, Nat.ne_of_lt h, show ¬ k + 1 ≤ r.toNat by omega]
    · simp [h]
    · obtain ⟨d, hd⟩ : ∃ d, r.toNat - k = d + 1 := ⟨r.toNat - k - 1, by omega⟩
      simp [hd, show k + 1 ≤ r.toNat by omega, show k ≤ r.toNat by omega, show r.toNat ≠ k by omega,
        show r.toNat - (k + 1) = d by omega]

/-- The register block stored by Store-regs: register `j` at place `j`, for `j` up to `x`. -/
theorem State.regsUpTo_length (s : State) (x : Nibble) : (s.regsUpTo x).length = x.toNat + 1 := by
  have := x.isLt
  simp [State.regsUpTo]; omega

theorem State.regsUpTo_getElem (s : State) (x r : Nibble) (h : r.toNat ≤ x.toNat) :
    (s.regsUpTo x)[r.toNat]? = some (s.reg r) := by
  have := r.isLt
  simp [State.regsUpTo, State.reg, show r.toNat < x.toNat + 1 by omega]

end Sys2Proof.Machine
end

