-- ==== Sys2Proof/Laws/Stack.lean ====
section
/-! SUPPORT. The address-stack controller: what a push and a pop answer (spec/41_control_transfer.md R100, R102). -/

namespace Sys2Proof.Machine

/-- The count is at most 16. -/
theorem State.sc_le (s : State) : s.sc.val ≤ 16 := Nat.le_of_lt_succ s.sc.isLt

/-- A push below 16 entries. -/
theorem State.push_ok (s : State) (a : Word) (h : s.sc.val < 16) :
    s.push a = .ok { s with stk := s.stk.set s.sc.val a h, sc := ⟨s.sc.val + 1, Nat.succ_lt_succ h⟩ } := by
  rw [State.push, dif_pos h]

/-- A push on a full stack. -/
theorem State.push_error (s : State) (a : Word) (h : s.sc.val = 16) : s.push a = .error .stackOverflow := by
  rw [State.push, dif_neg (by simp only [Config.stackDepth]; omega)]

/-- A pop with entries on the stack. -/
theorem State.pop_ok (s : State) (k : Fin 16) (h : s.sc.val = k.val + 1) :
    s.pop = .ok (s.stk[k.val], { s with sc := ⟨k.val, Nat.lt_succ_of_lt k.isLt⟩ }) := by
  have hsc : s.sc = ⟨k.val + 1, Nat.succ_lt_succ k.isLt⟩ := Fin.ext h
  rw [State.pop]
  split
  · simp_all
  · rename_i j hj hsc'
    obtain rfl : j = k.val := by rw [hsc'] at h; simpa using h
    rfl

/-- A pop from an empty stack. -/
theorem State.pop_error (s : State) (h : s.sc.val = 0) : s.pop = .error .stackUnderflow := by
  rw [State.pop]
  split
  · rfl
  · rename_i j hj hsc'
    rw [hsc'] at h
    simp at h

/-- Whatever a pop answers: it came from a non-empty stack and moved the count only. -/
theorem State.pop_inv (s : State) : (s.sc.val = 0 ∧ s.pop = .error .stackUnderflow) ∨
    ∃ k : Fin 16, s.sc.val = k.val + 1 ∧ s.pop = .ok (s.stk[k.val], { s with sc := ⟨k.val, Nat.lt_succ_of_lt k.isLt⟩ }) := by
  by_cases h : s.sc.val = 0
  · exact .inl ⟨h, s.pop_error h⟩
  · have hlt : s.sc.val < 17 := s.sc.isLt
    have e : s.sc.val = (⟨s.sc.val - 1, by omega⟩ : Fin 16).val + 1 := by simp; omega
    exact .inr ⟨_, e, s.pop_ok _ e⟩

end Sys2Proof.Machine
end

