-- ==== Sys2Proof/Laws/Exec.lean ====
section
/-! SUPPORT. What the meanings answer, for the instructions with more than one outcome: one lemma per outcome, and the two
inversion lemmas `exec_result` and `exec_raises` that say once what any instruction can do. -/

namespace Sys2Proof.Machine

/-- Every instruction answers a next state. -/
theorem exec_next (i : Instr) (s : State) : ∃ t, exec i s = .next t := by
  cases i <;> exact ⟨_, rfl⟩

/-! ## Operands as numbers -/

theorem zextAddr_toNat (a : Addr12) : (zextAddr a).toNat = a.toNat := by
  have := a.isLt
  rw [zextAddr, BitVec.toNat_setWidth]
  omega

theorem zextByte_toNat (b : Byte) : (zextByte b).toNat = b.toNat := by
  have := b.isLt
  rw [zextByte, BitVec.toNat_setWidth]
  omega

theorem State.keyNumber_eq (s : State) (x : Nibble) : s.keyNumber x = (s.reg x).toNat % 16 := by
  rw [State.keyNumber, BitVec.toNat_and]
  exact Nat.and_two_pow_sub_one_eq_mod _ 4

/-- The lowest pressed key is found. -/
theorem firstKey_some {key : Word} {k : Nat} (hk : k < 16) (h : key.getLsbD k = true)
    (hlow : ∀ j, j < k → key.getLsbD j = false) : firstKey key = some k := by
  rw [firstKey, List.find?_range_eq_some]
  exact ⟨h, List.mem_range.mpr hk, fun j hj => by simp [hlow j hj]⟩

/-- With every key up none is found. -/
theorem firstKey_zero : firstKey 0#16 = none := by decide

/-- With some key down one is found. -/
theorem firstKey_ne_none {key : Word} (h : key ≠ 0#16) : firstKey key ≠ none := by
  intro hn
  apply h
  apply BitVec.eq_of_getLsbD_eq
  intro k hk
  rw [firstKey, List.find?_eq_none] at hn
  simpa using hn k (List.mem_range.mpr hk)

/-! ## Call and Return -/

theorem execCall_ok (nnn : Addr12) (s : State) (h : s.sc.val < 16) :
    exec (.call nnn) s = .next (State.setPc { s with
      stk := s.stk.set s.sc.val s.pc h, sc := ⟨s.sc.val + 1, Nat.succ_lt_succ h⟩ } (zextAddr nnn)) := by
  simp only [exec, execCall, s.push_ok s.pc h, State.commit]

theorem execCall_full (nnn : Addr12) (s : State) (h : s.sc.val = 16) :
    exec (.call nnn) s = .next (s.takeFault .stackOverflow) := by
  simp only [exec, execCall, s.push_error s.pc h, State.commit]

theorem execRet_ok (s : State) (k : Fin 16) (h : s.sc.val = k.val + 1) :
    exec .ret s = .next (State.setPc { s with sc := ⟨k.val, Nat.lt_succ_of_lt k.isLt⟩ } s.stk[k.val]) := by
  simp only [exec, execRet, s.pop_ok k h, State.commit]

theorem execRet_empty (s : State) (h : s.sc.val = 0) : exec .ret s = .next (s.takeFault .stackUnderflow) := by
  simp only [exec, execRet, s.pop_error h, State.commit]

/-! ## The memory instructions -/

/-- A block write answers one of two things, by whether it ends inside the space. -/
theorem State.writeBytes_inv (s : State) (a : Nat) (bs : List Byte) :
    s.writeBytes a bs = .ok { s with mem := storeBytes s.glyphs s.mem a bs } ∨
    (s.writeBytes a bs = .error (.memRange (max a 4096)) ∧ 4096 < a + bs.length) := by
  by_cases h : a + bs.length ≤ 4096
  · exact .inl (s.writeBytes_ok bs a h)
  · cases bs with
    | nil => exact .inl rfl
    | cons b bs => exact .inr ⟨s.writeBytes_error _ a (by simp) (by omega), by omega⟩

theorem execLdB_ok (x : Nibble) (s : State) (h : s.i.toNat + 2 ≤ 0xFFF) :
    exec (.ldB x) s = .next { s with mem := storeBytes s.glyphs s.mem s.i.toNat (decimalDigits (s.reg x)) } := by
  simp only [exec, execLdB, State.memOperand]
  rw [s.writeBytes_ok _ _ (by simp only [decimalDigits, List.length_cons, List.length_nil]; omega)]
  rfl

theorem execLdB_fault (x : Nibble) (s : State) (h : 0xFFF < s.i.toNat + 2) :
    exec (.ldB x) s = .next (s.takeFault (.memRange (max s.i.toNat 4096))) := by
  simp only [exec, execLdB, State.memOperand]
  rw [s.writeBytes_error _ _ (by simp [decimalDigits])
    (by simp only [decimalDigits, List.length_cons, List.length_nil]; omega)]
  rfl

theorem execStoreRegs_ok (x : Nibble) (s : State) (h : s.i.toNat + x.toNat ≤ 0xFFF) :
    exec (.storeRegs x) s = .next { s with mem := storeBytes s.glyphs s.mem s.i.toNat (s.regsUpTo x) } := by
  simp only [exec, execStoreRegs, State.memOperand]
  rw [s.writeBytes_ok _ _ (by rw [s.regsUpTo_length]; omega)]
  rfl

theorem execStoreRegs_fault (x : Nibble) (s : State) (h : 0xFFF < s.i.toNat + x.toNat) :
    exec (.storeRegs x) s = .next (s.takeFault (.memRange (max s.i.toNat 4096))) := by
  have hne : s.regsUpTo x ≠ [] := List.ne_nil_of_length_pos (by rw [s.regsUpTo_length]; omega)
  simp only [exec, execStoreRegs, State.memOperand]
  rw [s.writeBytes_error _ _ hne (by rw [s.regsUpTo_length]; omega)]
  rfl

theorem execLoadRegs_ok (x : Nibble) (s : State) (h : s.i.toNat + x.toNat ≤ 0xFFF) :
    exec (.loadRegs x) s = .next (s.setRegsFrom 0
      ((List.range (x.toNat + 1)).map (fun k => s.readByte (s.i.toNat + k)))) := by
  simp only [exec, execLoadRegs, State.memOperand]
  rw [State.readBytes_ok _ s _ (by omega)]
  rfl

theorem execLoadRegs_fault (x : Nibble) (s : State) (h : 0xFFF < s.i.toNat + x.toNat) :
    exec (.loadRegs x) s = .next (s.takeFault (.memRange (max s.i.toNat 4096))) := by
  simp only [exec, execLoadRegs, State.memOperand]
  rw [State.readBytes_error _ s _ (by omega) (by omega)]
  rfl

/-- The register file a block load leaves. -/
theorem State.reg_loadBlock (s : State) (x r : Nibble) :
    (s.setRegsFrom 0 ((List.range (x.toNat + 1)).map (fun k => s.readByte (s.i.toNat + k)))).reg r =
      if r.toNat ≤ x.toNat then s.readByte (s.i.toNat + r.toNat) else s.reg r := by
  rw [State.reg_setRegsFrom]
  by_cases h : r.toNat ≤ x.toNat
  · simp [h, show r.toNat < x.toNat + 1 by omega]
  · simp [h]

/-! ## Draw -/

/-- The pixels the Draw of `n` rows scans: those of the bytes at `I`, from the origin `V[x]`, `V[y]`. -/
def State.drawnPixels (s : State) (x y n : Nibble) : List Nat :=
  spritePixels (s.originColumn x) (s.originRow y)
    ((List.range n.toNat).map (fun k => s.readByte (s.memOperand 0 + k)))

/-- The scanned pixels are the covered ones. -/
theorem State.mem_drawnPixels (s : State) (x y n : Nibble) (idx : Nat) :
    idx ∈ s.drawnPixels x y n ↔ s.Covers x y n idx := by
  rw [State.drawnPixels, mem_spritePixels]
  constructor
  · rintro ⟨r, c, hr, hc, hb, rfl⟩
    simp only [List.length_map, List.length_range] at hr
    exact ⟨r, c, ⟨hr, hc, by simpa [State.memOperand] using hb⟩, rfl⟩
  · rintro ⟨r, c, ⟨hr, hc, hb⟩, rfl⟩
    exact ⟨r, c, by simpa using hr, hc, by simpa [State.memOperand] using hb, rfl⟩

/-- The largest pixel index a sprite can reach is 2950. -/
theorem State.covers_le (s : State) {x y n : Nibble} {idx : Nat} (h : s.Covers x y n idx) : idx ≤ 2950 := by
  obtain ⟨r, c, ⟨hr, hc, -⟩, rfl⟩ := h
  have := n.isLt
  simp only [State.spriteIndex]
  omega

/-- Draw once its rows are read. -/
theorem execDrw_read (x y n : Nibble) (s : State) (h : n.toNat = 0 ∨ s.i.toNat + n.toNat ≤ 4096) :
    exec (.drw x y n) s = .next (s.commit (match plotPixels (s.drawnPixels x y n) s.disp false with
      | .error r => .error r
      | .ok (d, hit) => .ok ((s.setDisp d).setFlag (flagByte hit)))) := by
  simp only [exec, execDrw, State.drawSprite]
  rw [State.readBytes_ok _ s _ (by simpa [State.memOperand] using h)]
  rfl

/-- Draw with rows beyond the space. -/
theorem execDrw_memFault (x y n : Nibble) (s : State) (hn : n.toNat ≠ 0) (h : 4096 < s.i.toNat + n.toNat) :
    exec (.drw x y n) s = .next (s.takeFault (.memRange (max s.i.toNat 4096))) := by
  simp only [exec, execDrw, State.drawSprite]
  rw [State.readBytes_error _ s _ hn (by simpa [State.memOperand] using h)]
  simp only [State.commit, State.memOperand, Nat.add_zero]

/-- Draw with every row in the space and every set bit on the display. -/
theorem execDrw_ok (x y n : Nibble) (s : State) (h : n.toNat = 0 ∨ s.i.toNat + n.toNat ≤ 4096)
    (hps : ∀ p ∈ s.drawnPixels x y n, p < 2048) :
    ∃ d, exec (.drw x y n) s = .next ((s.setDisp d).setFlag
        (flagByte ((s.drawnPixels x y n).any (fun p => pixelOf s.disp p)))) ∧
      ∀ c, pixelOf d c = (pixelOf s.disp c ^^ decide (c ∈ s.drawnPixels x y n)) := by
  obtain ⟨d, hd, hpix⟩ := plotPixels_ok _ s.disp false hps (spritePixels_sorted _ _ _)
  refine ⟨d, ?_, hpix⟩
  rw [execDrw_read x y n s h, hd]
  simp only [State.commit, Bool.false_or]

/-- Draw with a first set bit beyond the last cell. -/
theorem execDrw_displayFault (x y n : Nibble) (s : State) (h : n.toNat = 0 ∨ s.i.toNat + n.toNat ≤ 4096) (p : Nat)
    (hp : p ∈ s.drawnPixels x y n) (hfar : 2048 ≤ p) (hfirst : ∀ q ∈ s.drawnPixels x y n, 2048 ≤ q → p ≤ q) :
    exec (.drw x y n) s = .next (s.takeFault (.displayRange p)) := by
  rw [execDrw_read x y n s h, plotPixels_error _ s.disp false p hp hfar hfirst (spritePixels_sorted _ _ _)]
  rfl

/-- The fault of a scan whose pixels rise names its first pixel beyond the last cell. -/
theorem plotPixels_raises {ps : List Nat} {d : Display} {hit : Bool} {r : Raised} (hd : ps.Pairwise (· < ·))
    (h : plotPixels ps d hit = .error r) :
    ∃ p ∈ ps, 2048 ≤ p ∧ (∀ q ∈ ps, 2048 ≤ q → p ≤ q) ∧ r = .displayRange p := by
  induction ps generalizing d hit with
  | nil => cases h
  | cons q ps ih =>
    obtain ⟨hlt, hd'⟩ := List.pairwise_cons.mp hd
    rw [plotPixels_cons] at h
    by_cases hq : q < 2048
    · rw [if_pos hq] at h
      obtain ⟨p, hp, hfar, hfirst, rfl⟩ := ih hd' h
      refine ⟨p, List.mem_cons_of_mem _ hp, hfar, fun a ha hb => ?_, rfl⟩
      rcases List.mem_cons.mp ha with rfl | ha
      · omega
      · exact hfirst a ha hb
    · rw [if_neg hq] at h
      cases h
      refine ⟨q, List.mem_cons_self, by omega, fun a ha _ => ?_, rfl⟩
      rcases List.mem_cons.mp ha with rfl | ha
      · exact Nat.le_refl _
      · exact Nat.le_of_lt (hlt a ha)

/-- The scan's result names no pixel beyond the last cell. -/
theorem plotPixels_reaches {ps : List Nat} {d : Display} {hit : Bool} {q : Display × Bool}
    (h : plotPixels ps d hit = .ok q) : ∀ p ∈ ps, p < 2048 := by
  induction ps generalizing d hit with
  | nil => intro p hp; cases hp
  | cons a ps ih =>
    rw [plotPixels_cons] at h
    by_cases ha : a < 2048
    · rw [if_pos ha] at h
      intro p hp
      rcases List.mem_cons.mp hp with rfl | hp
      · exact ha
      · exact ih h p hp
    · rw [if_neg ha] at h
      cases h

/-! ## Wait-key -/

theorem execLdVxK_up (x : Nibble) (s : State) (h : s.key = 0#16) :
    exec (.ldVxK x) s = .next (s.setPc (s.pc - 2#16)) := by
  simp only [exec, execLdVxK, h, firstKey_zero]

theorem execLdVxK_down (x : Nibble) (s : State) (k : Nat) (h : firstKey s.key = some k) :
    exec (.ldVxK x) s = .next (s.setReg x (BitVec.ofNat 8 k)) := by
  simp only [exec, execLdVxK, h]

/-! ## Inversion -/

/-- What an instruction can do where it has more than one outcome: it takes a fault, or it has the one effect written
here. The instructions that are not named have the effect their meaning writes. -/
theorem exec_result {i : Instr} {s u : State} (he : exec i s = .next u) :
    (∃ r, u = s.takeFault r) ∨
    match i with
    | .call nnn => ∃ h : s.sc.val < 16, u = State.setPc { s with
        stk := s.stk.set s.sc.val s.pc h, sc := ⟨s.sc.val + 1, Nat.succ_lt_succ h⟩ } (zextAddr nnn)
    | .ret => ∃ k : Fin 16, s.sc.val = k.val + 1 ∧
        u = State.setPc { s with sc := ⟨k.val, Nat.lt_succ_of_lt k.isLt⟩ } s.stk[k.val]
    | .ldB x => s.i.toNat + 2 ≤ 0xFFF ∧ u = { s with mem := storeBytes s.glyphs s.mem s.i.toNat (decimalDigits (s.reg x)) }
    | .storeRegs x => s.i.toNat + x.toNat ≤ 0xFFF ∧
        u = { s with mem := storeBytes s.glyphs s.mem s.i.toNat (s.regsUpTo x) }
    | .loadRegs x => s.i.toNat + x.toNat ≤ 0xFFF ∧ u = { s with v := u.v } ∧
        ∀ r : Nibble, u.reg r = if r.toNat ≤ x.toNat then s.readByte (s.i.toNat + r.toNat) else s.reg r
    | .drw _ _ _ => ∃ d b, u = (s.setDisp d).setFlag b
    | .ldVxK x => (s.key = 0#16 ∧ u = s.setPc (s.pc - 2#16)) ∨ (s.key ≠ 0#16 ∧ ∃ b, u = s.setReg x b)
    | _ => True := by
  cases i with
  | call nnn =>
    by_cases h : s.sc.val < 16
    · rw [execCall_ok nnn s h] at he; cases he; exact .inr ⟨h, rfl⟩
    · rw [execCall_full nnn s (by have := s.sc_le; omega)] at he; cases he; exact .inl ⟨_, rfl⟩
  | ret =>
    rcases s.pop_inv with ⟨h, -⟩ | ⟨k, h, -⟩
    · rw [execRet_empty s h] at he; cases he; exact .inl ⟨_, rfl⟩
    · rw [execRet_ok s k h] at he; cases he; exact .inr ⟨k, h, rfl⟩
  | ldB x =>
    by_cases h : s.i.toNat + 2 ≤ 0xFFF
    · rw [execLdB_ok x s h] at he; cases he; exact .inr ⟨h, rfl⟩
    · rw [execLdB_fault x s (by omega)] at he; cases he; exact .inl ⟨_, rfl⟩
  | storeRegs x =>
    by_cases h : s.i.toNat + x.toNat ≤ 0xFFF
    · rw [execStoreRegs_ok x s h] at he; cases he; exact .inr ⟨h, rfl⟩
    · rw [execStoreRegs_fault x s (by omega)] at he; cases he; exact .inl ⟨_, rfl⟩
  | loadRegs x =>
    by_cases h : s.i.toNat + x.toNat ≤ 0xFFF
    · rw [execLoadRegs_ok x s h] at he; cases he
      exact .inr ⟨h, State.setRegsFrom_frame _ _ _, fun r => s.reg_loadBlock x r⟩
    · rw [execLoadRegs_fault x s (by omega)] at he; cases he; exact .inl ⟨_, rfl⟩
  | drw x y n =>
    by_cases h : n.toNat = 0 ∨ s.i.toNat + n.toNat ≤ 4096
    · rw [execDrw_read x y n s h] at he
      cases hp : plotPixels (s.drawnPixels x y n) s.disp false with
      | error r => rw [hp] at he; cases he; exact .inl ⟨_, rfl⟩
      | ok q => rw [hp] at he; cases he; exact .inr ⟨_, _, rfl⟩
    · rw [execDrw_memFault x y n s (by omega) (by omega)] at he; cases he; exact .inl ⟨_, rfl⟩
  | ldVxK x =>
    by_cases h : s.key = 0#16
    · rw [execLdVxK_up x s h] at he; cases he; exact .inr (.inl ⟨h, rfl⟩)
    · cases hk : firstKey s.key with
      | none => exact absurd hk (firstKey_ne_none h)
      | some k => rw [execLdVxK_down x s k hk] at he; cases he; exact .inr (.inr ⟨h, _, rfl⟩)
  | _ => exact .inr trivial

/-- When an instruction that found the latch empty leaves it empty or takes a fault, and which (spec/60_exceptions.md
R171). -/
theorem exec_raises {i : Instr} {s u : State} (hs : s.flt = none) (he : exec i s = .next u) :
    u.flt = none ∨ ∃ r, u = s.takeFault r ∧
      match r with
      | .fetchRange _ => False
      | .memRange a => a = max s.i.toNat 4096 ∧
          ((∃ x, i = .ldB x ∧ 0xFFF < s.i.toNat + 2) ∨ (∃ x, i = .storeRegs x ∧ 0xFFF < s.i.toNat + x.toNat) ∨
            (∃ x, i = .loadRegs x ∧ 0xFFF < s.i.toNat + x.toNat) ∨
            ∃ x y n, i = .drw x y n ∧ 0 < n.toNat ∧ 4096 < s.i.toNat + n.toNat)
      | .displayRange idx => ∃ x y n, i = .drw x y n ∧ (n.toNat = 0 ∨ s.i.toNat + n.toNat ≤ 4096) ∧ 2048 ≤ idx ∧
          s.Covers x y n idx ∧ ∀ a, s.Covers x y n a → 2048 ≤ a → idx ≤ a
      | .stackOverflow => (∃ nnn, i = .call nnn) ∧ s.sc.val = 16
      | .stackUnderflow => i = .ret ∧ s.sc.val = 0 := by
  cases i with
  | call nnn =>
    by_cases h : s.sc.val < 16
    · rw [execCall_ok nnn s h] at he; cases he; exact .inl hs
    · have h : s.sc.val = 16 := by have := s.sc_le; omega
      rw [execCall_full nnn s h] at he; cases he; exact .inr ⟨_, rfl, ⟨_, rfl⟩, h⟩
  | ret =>
    rcases s.pop_inv with ⟨h, -⟩ | ⟨k, h, -⟩
    · rw [execRet_empty s h] at he; cases he; exact .inr ⟨_, rfl, rfl, h⟩
    · rw [execRet_ok s k h] at he; cases he; exact .inl hs
  | ldB x =>
    by_cases h : s.i.toNat + 2 ≤ 0xFFF
    · rw [execLdB_ok x s h] at he; cases he; exact .inl hs
    · have h : 0xFFF < s.i.toNat + 2 := by omega
      rw [execLdB_fault x s h] at he; cases he; exact .inr ⟨_, rfl, rfl, .inl ⟨_, rfl, h⟩⟩
  | storeRegs x =>
    by_cases h : s.i.toNat + x.toNat ≤ 0xFFF
    · rw [execStoreRegs_ok x s h] at he; cases he; exact .inl hs
    · have h : 0xFFF < s.i.toNat + x.toNat := by omega
      rw [execStoreRegs_fault x s h] at he; cases he; exact .inr ⟨_, rfl, rfl, .inr (.inl ⟨_, rfl, h⟩)⟩
  | loadRegs x =>
    by_cases h : s.i.toNat + x.toNat ≤ 0xFFF
    · rw [execLoadRegs_ok x s h] at he; cases he; rw [State.setRegsFrom_frame]; exact .inl hs
    · have h : 0xFFF < s.i.toNat + x.toNat := by omega
      rw [execLoadRegs_fault x s h] at he; cases he; exact .inr ⟨_, rfl, rfl, .inr (.inr (.inl ⟨_, rfl, h⟩))⟩
  | drw x y n =>
    by_cases h : n.toNat = 0 ∨ s.i.toNat + n.toNat ≤ 4096
    · rw [execDrw_read x y n s h] at he
      cases hp : plotPixels (s.drawnPixels x y n) s.disp false with
      | error r =>
        rw [hp] at he; cases he
        obtain ⟨p, hmem, hfar, hfirst, rfl⟩ := plotPixels_raises (spritePixels_sorted _ _ _) hp
        exact .inr ⟨_, rfl, _, _, _, rfl, h, hfar, (s.mem_drawnPixels ..).mp hmem,
          fun a ha => hfirst a ((s.mem_drawnPixels ..).mpr ha)⟩
      | ok q => rw [hp] at he; cases he; exact .inl hs
    · rw [execDrw_memFault x y n s (by omega) (by omega)] at he; cases he
      exact .inr ⟨_, rfl, rfl, .inr (.inr (.inr ⟨_, _, _, rfl, by omega, by omega⟩))⟩
  | ldVxK x => simp only [exec, execLdVxK] at he; split at he <;> (cases he; exact .inl hs)
  | _ => left; cases he; first | exact hs | (rw [State.skipIf_flt]; exact hs)

end Sys2Proof.Machine
end

