-- ==== Sys2Proof/Laws/PerInstr.lean ====
section
/-! SUPPORT. The family `Canonical` of LAWS.json: the encoder writes each instruction's canonical pattern, the mask and match
that spec/opcode_table.json gives its row for an encoder (spec/30_encoding.md R75, R81), and for an unmapped word one that
no row's decoder match hits (R77). One lemma per constructor. -/

namespace Sys2Proof.Laws.Canonical

/-- The canonical mask and match of an instruction's row; an unmapped word has none. -/
def pattern : Instr → Option (Word × Word)
  | .cls => some (0xFFFF#16, 0x00E0#16)
  | .ret => some (0xFFFF#16, 0x00EE#16)
  | .jp _ => some (0xF000#16, 0x1000#16)
  | .call _ => some (0xF000#16, 0x2000#16)
  | .seImm _ _ => some (0xF000#16, 0x3000#16)
  | .sneImm _ _ => some (0xF000#16, 0x4000#16)
  | .seReg _ _ => some (0xF00F#16, 0x5000#16)
  | .ldImm _ _ => some (0xF000#16, 0x6000#16)
  | .addImm _ _ => some (0xF000#16, 0x7000#16)
  | .ldReg _ _ => some (0xF00F#16, 0x8000#16)
  | .orReg _ _ => some (0xF00F#16, 0x8001#16)
  | .andReg _ _ => some (0xF00F#16, 0x8002#16)
  | .xorReg _ _ => some (0xF00F#16, 0x8003#16)
  | .addReg _ _ => some (0xF00F#16, 0x8004#16)
  | .subReg _ _ => some (0xF00F#16, 0x8005#16)
  | .shr _ _ => some (0xF00F#16, 0x8006#16)
  | .subnReg _ _ => some (0xF00F#16, 0x8007#16)
  | .shl _ _ => some (0xF00F#16, 0x800E#16)
  | .sneReg _ _ => some (0xF00F#16, 0x9000#16)
  | .ldI _ => some (0xF000#16, 0xA000#16)
  | .jpV0 _ => some (0xF000#16, 0xB000#16)
  | .rnd _ _ => some (0xF000#16, 0xC000#16)
  | .drw _ _ _ => some (0xF000#16, 0xD000#16)
  | .skp _ => some (0xF0FF#16, 0xE09E#16)
  | .sknp _ => some (0xF0FF#16, 0xE0A1#16)
  | .ldVxDt _ => some (0xF0FF#16, 0xF007#16)
  | .ldVxK _ => some (0xF0FF#16, 0xF00A#16)
  | .ldDtVx _ => some (0xF0FF#16, 0xF015#16)
  | .ldStVx _ => some (0xF0FF#16, 0xF018#16)
  | .addI _ => some (0xF0FF#16, 0xF01E#16)
  | .ldF _ => some (0xF0FF#16, 0xF029#16)
  | .ldB _ => some (0xF0FF#16, 0xF033#16)
  | .storeRegs _ => some (0xF0FF#16, 0xF055#16)
  | .loadRegs _ => some (0xF0FF#16, 0xF065#16)
  | .unmapped _ => none

/-- The statement of the family. -/
def Statement (i : Instr) : Prop :=
  match pattern i with
  | some (mask, value) => encode i &&& mask = value
  | none => i.WellFormed → ∀ row ∈ opcodeRows, row.hits (encode i) = false

/-! ## A masked word by its primary key and its low bits -/

theorem and_F000_eq {w k : Word} (h : w.toNat / 4096 * 4096 = k.toNat) : w &&& 0xF000#16 = k :=
  BitVec.eq_of_toNat_eq (by rw [and_F000_toNat, h])

theorem and_F00F_eq {w k : Word} (h : w.toNat / 4096 * 4096 + w.toNat % 16 = k.toNat) : w &&& 0xF00F#16 = k :=
  BitVec.eq_of_toNat_eq (by rw [and_F00F_toNat, h])

theorem and_F0FF_eq {w k : Word} (h : w.toNat / 4096 * 4096 + w.toNat % 256 = k.toNat) : w &&& 0xF0FF#16 = k :=
  BitVec.eq_of_toNat_eq (by rw [and_F0FF_toNat, h])

/-- An XKK word keeps its primary key. -/
theorem canonicalKk (p x : Nibble) (kk : Byte) (k : Word) (h : p.toNat * 4096 = k.toNat) :
    assembleKk p x kk &&& 0xF000#16 = k :=
  and_F000_eq (by have := x.isLt; have := kk.isLt; rw [assembleKk_toNat, ← h]; clear h; omega)

/-- An NNN word keeps its primary key. -/
theorem canonicalNnn (p : Nibble) (nnn : Addr12) (k : Word) (h : p.toNat * 4096 = k.toNat) :
    assembleNnn p nnn &&& 0xF000#16 = k :=
  and_F000_eq (by have := nnn.isLt; rw [assembleNnn_toNat, ← h]; clear h; omega)

/-- A XYN word keeps its primary key. -/
theorem canonicalXyn (p x y n : Nibble) (k : Word) (h : p.toNat * 4096 = k.toNat) :
    assemble p x y n &&& 0xF000#16 = k :=
  and_F000_eq (by have := x.isLt; have := y.isLt; have := n.isLt; rw [assemble_toNat, ← h]; clear h; omega)

/-- A XYS word keeps its primary key and its low nibble. -/
theorem canonicalXys (p x y n : Nibble) (k : Word) (h : p.toNat * 4096 + n.toNat = k.toNat) :
    assemble p x y n &&& 0xF00F#16 = k :=
  and_F00F_eq (by have := x.isLt; have := y.isLt; have := n.isLt; rw [assemble_toNat, ← h]; clear h; omega)

/-- A XSS word keeps its primary key and its low byte. -/
theorem canonicalXss (p x : Nibble) (kk : Byte) (k : Word) (h : p.toNat * 4096 + kk.toNat = k.toNat) :
    assembleKk p x kk &&& 0xF0FF#16 = k :=
  and_F0FF_eq (by have := x.isLt; have := kk.isLt; rw [assembleKk_toNat, ← h]; clear h; omega)

/-! ## A row's match by the word's primary key and low bits -/

theorem beq_F000 (w k : Word) :
    (w &&& 0xF000#16 == k) = decide (w.toNat / 4096 = k.toNat / 4096 ∧ 0 = k.toNat % 4096) := by
  rw [Bool.eq_iff_iff, beq_iff_eq, decide_eq_true_eq, ← BitVec.toNat_inj, and_F000_toNat]
  omega

theorem beq_F00F (w k : Word) :
    (w &&& 0xF00F#16 == k) = decide (w.toNat / 4096 = k.toNat / 4096 ∧ w.toNat % 16 = k.toNat % 4096) := by
  rw [Bool.eq_iff_iff, beq_iff_eq, decide_eq_true_eq, ← BitVec.toNat_inj, and_F00F_toNat]
  omega

theorem beq_F0FF (w k : Word) :
    (w &&& 0xF0FF#16 == k) = decide (w.toNat / 4096 = k.toNat / 4096 ∧ w.toNat % 256 = k.toNat % 4096) := by
  rw [Bool.eq_iff_iff, beq_iff_eq, decide_eq_true_eq, ← BitVec.toNat_inj, and_F0FF_toNat]
  omega

/-- The unmapped space by primary key and low bits. -/
theorem unmapped_cases {w : Word} (h : unmappedWord w = true) :
    (w.toNat / 4096 = 0 ∧ w.toNat % 16 ≠ 0 ∧ w.toNat % 16 ≠ 14) ∨
    (w.toNat / 4096 = 8 ∧ (8 ≤ w.toNat % 16 ∧ w.toNat % 16 ≤ 13 ∨ w.toNat % 16 = 15)) ∨
    (w.toNat / 4096 = 14 ∧ w.toNat % 16 ≠ 1 ∧ w.toNat % 16 ≠ 14) ∨
    (w.toNat / 4096 = 15 ∧ w.toNat % 256 ∉ [0x07, 0x0A, 0x15, 0x18, 0x1E, 0x29, 0x33, 0x55, 0x65]) := by
  simp only [unmappedWord, List.contains_cons, List.contains_nil, Bool.or_eq_true, Bool.and_eq_true,
    Bool.not_eq_true', beq_iff_eq, beq_eq_false_iff_ne, ne_eq, Bool.or_eq_false_iff, Bool.or_false,
    ← BitVec.toNat_inj, and_F000_toNat, and_000F_toNat, and_00FF_toNat] at h
  simp only [BitVec.toNat_ofNat, List.mem_cons, List.not_mem_nil, or_false, not_or] at h ⊢
  omega

/-! ## One lemma per constructor -/

theorem cls : Statement .cls := rfl
theorem ret : Statement .ret := rfl
theorem jp (nnn : Addr12) : Statement (.jp nnn) := canonicalNnn _ nnn _ rfl
theorem call (nnn : Addr12) : Statement (.call nnn) := canonicalNnn _ nnn _ rfl
theorem seImm (x : Nibble) (kk : Byte) : Statement (.seImm x kk) := canonicalKk _ x kk _ rfl
theorem sneImm (x : Nibble) (kk : Byte) : Statement (.sneImm x kk) := canonicalKk _ x kk _ rfl
theorem seReg (x : Nibble) (y : Nibble) : Statement (.seReg x y) := canonicalXys _ x y _ _ rfl
theorem ldImm (x : Nibble) (kk : Byte) : Statement (.ldImm x kk) := canonicalKk _ x kk _ rfl
theorem addImm (x : Nibble) (kk : Byte) : Statement (.addImm x kk) := canonicalKk _ x kk _ rfl
theorem ldReg (x : Nibble) (y : Nibble) : Statement (.ldReg x y) := canonicalXys _ x y _ _ rfl
theorem orReg (x : Nibble) (y : Nibble) : Statement (.orReg x y) := canonicalXys _ x y _ _ rfl
theorem andReg (x : Nibble) (y : Nibble) : Statement (.andReg x y) := canonicalXys _ x y _ _ rfl
theorem xorReg (x : Nibble) (y : Nibble) : Statement (.xorReg x y) := canonicalXys _ x y _ _ rfl
theorem addReg (x : Nibble) (y : Nibble) : Statement (.addReg x y) := canonicalXys _ x y _ _ rfl
theorem subReg (x : Nibble) (y : Nibble) : Statement (.subReg x y) := canonicalXys _ x y _ _ rfl
theorem shr (x : Nibble) (y : Nibble) : Statement (.shr x y) := canonicalXys _ x y _ _ rfl
theorem subnReg (x : Nibble) (y : Nibble) : Statement (.subnReg x y) := canonicalXys _ x y _ _ rfl
theorem shl (x : Nibble) (y : Nibble) : Statement (.shl x y) := canonicalXys _ x y _ _ rfl
theorem sneReg (x : Nibble) (y : Nibble) : Statement (.sneReg x y) := canonicalXys _ x y _ _ rfl
theorem ldI (nnn : Addr12) : Statement (.ldI nnn) := canonicalNnn _ nnn _ rfl
theorem jpV0 (nnn : Addr12) : Statement (.jpV0 nnn) := canonicalNnn _ nnn _ rfl
theorem rnd (x : Nibble) (kk : Byte) : Statement (.rnd x kk) := canonicalKk _ x kk _ rfl
theorem drw (x : Nibble) (y : Nibble) (n : Nibble) : Statement (.drw x y n) := canonicalXyn _ x y n _ rfl
theorem skp (x : Nibble) : Statement (.skp x) := canonicalXss _ x _ _ rfl
theorem sknp (x : Nibble) : Statement (.sknp x) := canonicalXss _ x _ _ rfl
theorem ldVxDt (x : Nibble) : Statement (.ldVxDt x) := canonicalXss _ x _ _ rfl
theorem ldVxK (x : Nibble) : Statement (.ldVxK x) := canonicalXss _ x _ _ rfl
theorem ldDtVx (x : Nibble) : Statement (.ldDtVx x) := canonicalXss _ x _ _ rfl
theorem ldStVx (x : Nibble) : Statement (.ldStVx x) := canonicalXss _ x _ _ rfl
theorem addI (x : Nibble) : Statement (.addI x) := canonicalXss _ x _ _ rfl
theorem ldF (x : Nibble) : Statement (.ldF x) := canonicalXss _ x _ _ rfl
theorem ldB (x : Nibble) : Statement (.ldB x) := canonicalXss _ x _ _ rfl
theorem storeRegs (x : Nibble) : Statement (.storeRegs x) := canonicalXss _ x _ _ rfl
theorem loadRegs (x : Nibble) : Statement (.loadRegs x) := canonicalXss _ x _ _ rfl
theorem unmapped (w : Word) : Statement (.unmapped w) := by
  intro hw row hrow
  have hw := unmapped_cases hw
  simp only [opcodeRows, opcodeRowsLow, opcodeRows8, opcodeRowsHigh, opcodeRowsF, List.cons_append, List.nil_append,
    List.mem_cons, List.not_mem_nil, or_false] at hrow
  simp only [List.mem_cons, List.not_mem_nil, or_false, not_or] at hw
  rcases hrow with h | h | h | h | h | h | h | h | h | h | h | h | h | h | h | h | h | h | h | h | h | h | h | h |
    h | h | h | h | h | h | h | h | h | h <;> subst h <;>
    simp only [OpcodeRow.hits, encode, beq_F000, beq_F00F, beq_F0FF, decide_eq_false_iff_not, BitVec.toNat_ofNat] <;>
    omega


end Sys2Proof.Laws.Canonical
end

