-- ==== Sys2Proof/Laws/Step.lean ====
section
/-! SUPPORT. What a Step does, said once: the equation of a Step that runs an instruction, the Step's end, and the
inversion of any Step (spec/40_step_cycle.md R90). -/

namespace Sys2Proof.Machine

/-- A timer's decay as a number: one down, floor zero. -/
theorem decay_toNat (b : Byte) : (decay b).toNat = b.toNat - 1 := by
  have := b.isLt
  unfold decay
  split
  · subst b; rfl
  · rename_i h
    have : b.toNat ≠ 0 := fun e => h (BitVec.eq_of_toNat_eq e)
    rw [BitVec.toNat_sub, show (1#8).toNat = 1 from rfl]
    omega

/-- The end of a Step whose handler took no fault. -/
theorem State.endStep_ok (s t : State) (h : t.flt = none) : s.endStep t = t.decayTimers.nextInput := by
  rw [State.endStep, h]

/-- The end of a Step whose handler took a fault. -/
theorem State.endStep_fault (s t : State) (f : FltRecord) (h : t.flt = some f) :
    s.endStep t = { s with flt := some f } := by
  rw [State.endStep, h]

/-- A Step that runs an instruction is that instruction's meaning between the fetch and the Step's end. -/
theorem step_of_runs {s : State} {i : Instr} (h : s.Runs i) :
    step s = s.finish (exec i (s.fetched s.fetchWord)) := by
  obtain ⟨h1, h2, h3⟩ := h
  have hc : s.canFetch = true := decide_eq_true (by simp only [Config.memSize]; omega)
  simp only [step, h1, hc, if_true, State.nextInstr, h3]

/-- A Step that runs an instruction without a fault. -/
theorem step_of_runs_ok {s t : State} {i : Instr} (h : s.Runs i) (he : exec i (s.fetched s.fetchWord) = .next t)
    (hf : t.flt = none) : step s = .next t.decayTimers.nextInput := by
  rw [step_of_runs h, he]
  simp only [State.finish, s.endStep_ok t hf]

/-- A state runs at most one instruction. -/
theorem State.runs_unique {s : State} {i j : Instr} (hi : s.Runs i) (hj : s.Runs j) : i = j :=
  hi.2.2.symm.trans hj.2.2

/-- Whatever a Step answers: the state as it was, the fetch fault, or the end of the Step of the instruction it runs. -/
theorem step_inv {s t : State} (h : step s = .next t) :
    (s.flt ≠ none ∧ t = s) ∨ (s.flt = none ∧ 0xFFF ≤ s.pc.toNat ∧ t = s.takeFetchFault) ∨
    ∃ i u, s.Runs i ∧ exec i (s.fetched s.fetchWord) = .next u ∧ t = s.endStep u := by
  cases hf : s.flt with
  | some f =>
    simp only [step, hf] at h
    cases h
    exact .inl ⟨by simp, rfl⟩
  | none =>
    right
    by_cases hp : 0xFFF ≤ s.pc.toNat
    · left
      have hc : s.canFetch = false := decide_eq_false (by simp only [Config.memSize]; omega)
      simp only [step, hf, hc] at h
      cases h
      exact ⟨rfl, hp, rfl⟩
    · right
      have hr : s.Runs (decode s.fetchWord) := ⟨hf, by omega, rfl⟩
      obtain ⟨u, hu⟩ := exec_next (decode s.fetchWord) (s.fetched s.fetchWord)
      rw [step_of_runs hr, hu] at h
      cases h
      exact ⟨_, u, hr, hu, rfl⟩

/-- Whatever a Step answers, sorted by whether anything but the latch changed. -/
theorem step_cases {s t : State} (h : step s = .next t) :
    (∃ f, t = { s with flt := f }) ∨
    ∃ i u, s.Runs i ∧ exec i (s.fetched s.fetchWord) = .next u ∧ u.flt = none ∧ t = u.decayTimers.nextInput := by
  rcases step_inv h with ⟨-, rfl⟩ | ⟨-, -, rfl⟩ | ⟨i, u, hr, he, rfl⟩
  · exact .inl ⟨_, rfl⟩
  · exact .inl ⟨_, rfl⟩
  · cases hf : u.flt with
    | none => exact .inr ⟨i, u, hr, he, hf, s.endStep_ok u hf⟩
    | some f => exact .inl ⟨some f, s.endStep_fault u f hf⟩

end Sys2Proof.Machine
end

