-- ==== Sys2Proof/Tests/Slice0.lean ====
section
/-! SUPPORT. The package's own tests: expected values from the spec's examples and vectors (spec/95_test_vectors.md, by its
identifiers) and from the encodings of spec/30_encoding.md, and one witness for the hypotheses of every statement. -/

namespace Sys2Proof.Tests

open Sys2Proof.Machine

/-! ## The well-formedness check: one ill-formed term per refusal (R78) -/

theorem test_wf_refuses_family1 : Instr.wf (.unmapped 0x1ABC#16) = false := by decide
theorem test_wf_refuses_clear : Instr.wf (.unmapped 0x00E0#16) = false := by decide
theorem test_wf_refuses_clear_alias : Instr.wf (.unmapped 0x0230#16) = false := by decide
theorem test_wf_refuses_return : Instr.wf (.unmapped 0x00EE#16) = false := by decide
theorem test_wf_refuses_add : Instr.wf (.unmapped 0x8124#16) = false := by decide
theorem test_wf_refuses_shift_left : Instr.wf (.unmapped 0x812E#16) = false := by decide
theorem test_wf_refuses_skip_key : Instr.wf (.unmapped 0xE2A1#16) = false := by decide
theorem test_wf_refuses_store_regs : Instr.wf (.unmapped 0xF155#16) = false := by decide
theorem test_wf_accepts_unmapped : Instr.wf (.unmapped 0x8128#16) = true ∧ Instr.wf (.unmapped 0xE293#16) = true ∧
    Instr.wf (.unmapped 0xF175#16) = true ∧ Instr.wf (.unmapped 0x0001#16) = true := by decide

/-! ## One word per constructor, written out bit by bit from the canonical encodings (R71, R75) -/

theorem test_word_cls : decode 0b0000000011100000#16 = .cls ∧ encode (.cls) = 0b0000000011100000#16 := by decide
theorem test_word_ret : decode 0b0000000011101110#16 = .ret ∧ encode (.ret) = 0b0000000011101110#16 := by decide
theorem test_word_jp : decode 0b0001101010111100#16 = .jp 0xABC#12 ∧ encode (.jp 0xABC#12) = 0b0001101010111100#16 := by decide
theorem test_word_call : decode 0b0010001101000101#16 = .call 0x345#12 ∧ encode (.call 0x345#12) = 0b0010001101000101#16 := by decide
theorem test_word_seImm : decode 0b0011001101000010#16 = .seImm 0x3#4 0x42#8 ∧ encode (.seImm 0x3#4 0x42#8) = 0b0011001101000010#16 := by decide
theorem test_word_sneImm : decode 0b0100001101000011#16 = .sneImm 0x3#4 0x43#8 ∧ encode (.sneImm 0x3#4 0x43#8) = 0b0100001101000011#16 := by decide
theorem test_word_seReg : decode 0b0101001101000000#16 = .seReg 0x3#4 0x4#4 ∧ encode (.seReg 0x3#4 0x4#4) = 0b0101001101000000#16 := by decide
theorem test_word_ldImm : decode 0b0110101011111111#16 = .ldImm 0xA#4 0xFF#8 ∧ encode (.ldImm 0xA#4 0xFF#8) = 0b0110101011111111#16 := by decide
theorem test_word_addImm : decode 0b0111111100000010#16 = .addImm 0xF#4 0x02#8 ∧ encode (.addImm 0xF#4 0x02#8) = 0b0111111100000010#16 := by decide
theorem test_word_ldReg : decode 0b1000000100100000#16 = .ldReg 0x1#4 0x2#4 ∧ encode (.ldReg 0x1#4 0x2#4) = 0b1000000100100000#16 := by decide
theorem test_word_orReg : decode 0b1000000100100001#16 = .orReg 0x1#4 0x2#4 ∧ encode (.orReg 0x1#4 0x2#4) = 0b1000000100100001#16 := by decide
theorem test_word_andReg : decode 0b1000000100100010#16 = .andReg 0x1#4 0x2#4 ∧ encode (.andReg 0x1#4 0x2#4) = 0b1000000100100010#16 := by decide
theorem test_word_xorReg : decode 0b1000000100100011#16 = .xorReg 0x1#4 0x2#4 ∧ encode (.xorReg 0x1#4 0x2#4) = 0b1000000100100011#16 := by decide
theorem test_word_addReg : decode 0b1000000100100100#16 = .addReg 0x1#4 0x2#4 ∧ encode (.addReg 0x1#4 0x2#4) = 0b1000000100100100#16 := by decide
theorem test_word_subReg : decode 0b1000000100100101#16 = .subReg 0x1#4 0x2#4 ∧ encode (.subReg 0x1#4 0x2#4) = 0b1000000100100101#16 := by decide
theorem test_word_shr : decode 0b1000000100100110#16 = .shr 0x1#4 0x2#4 ∧ encode (.shr 0x1#4 0x2#4) = 0b1000000100100110#16 := by decide
theorem test_word_subnReg : decode 0b1000000100100111#16 = .subnReg 0x1#4 0x2#4 ∧ encode (.subnReg 0x1#4 0x2#4) = 0b1000000100100111#16 := by decide
theorem test_word_shl : decode 0b1000000100101110#16 = .shl 0x1#4 0x2#4 ∧ encode (.shl 0x1#4 0x2#4) = 0b1000000100101110#16 := by decide
theorem test_word_sneReg : decode 0b1001001101010000#16 = .sneReg 0x3#4 0x5#4 ∧ encode (.sneReg 0x3#4 0x5#4) = 0b1001001101010000#16 := by decide
theorem test_word_ldI : decode 0b1010000001010000#16 = .ldI 0x050#12 ∧ encode (.ldI 0x050#12) = 0b1010000001010000#16 := by decide
theorem test_word_jpV0 : decode 0b1011001100000100#16 = .jpV0 0x304#12 ∧ encode (.jpV0 0x304#12) = 0b1011001100000100#16 := by decide
theorem test_word_rnd : decode 0b1100000100001111#16 = .rnd 0x1#4 0x0F#8 ∧ encode (.rnd 0x1#4 0x0F#8) = 0b1100000100001111#16 := by decide
theorem test_word_drw : decode 0b1101000000010101#16 = .drw 0x0#4 0x1#4 0x5#4 ∧ encode (.drw 0x0#4 0x1#4 0x5#4) = 0b1101000000010101#16 := by decide
theorem test_word_skp : decode 0b1110001010011110#16 = .skp 0x2#4 ∧ encode (.skp 0x2#4) = 0b1110001010011110#16 := by decide
theorem test_word_sknp : decode 0b1110001010100001#16 = .sknp 0x2#4 ∧ encode (.sknp 0x2#4) = 0b1110001010100001#16 := by decide
theorem test_word_ldVxDt : decode 0b1111001100000111#16 = .ldVxDt 0x3#4 ∧ encode (.ldVxDt 0x3#4) = 0b1111001100000111#16 := by decide
theorem test_word_ldVxK : decode 0b1111010000001010#16 = .ldVxK 0x4#4 ∧ encode (.ldVxK 0x4#4) = 0b1111010000001010#16 := by decide
theorem test_word_ldDtVx : decode 0b1111001000010101#16 = .ldDtVx 0x2#4 ∧ encode (.ldDtVx 0x2#4) = 0b1111001000010101#16 := by decide
theorem test_word_ldStVx : decode 0b1111001000011000#16 = .ldStVx 0x2#4 ∧ encode (.ldStVx 0x2#4) = 0b1111001000011000#16 := by decide
theorem test_word_addI : decode 0b1111001000011110#16 = .addI 0x2#4 ∧ encode (.addI 0x2#4) = 0b1111001000011110#16 := by decide
theorem test_word_ldF : decode 0b1111001100101001#16 = .ldF 0x3#4 ∧ encode (.ldF 0x3#4) = 0b1111001100101001#16 := by decide
theorem test_word_ldB : decode 0b1111000000110011#16 = .ldB 0x0#4 ∧ encode (.ldB 0x0#4) = 0b1111000000110011#16 := by decide
theorem test_word_storeRegs : decode 0b1111000101010101#16 = .storeRegs 0x1#4 ∧ encode (.storeRegs 0x1#4) = 0b1111000101010101#16 := by decide
theorem test_word_loadRegs : decode 0b1111001001100101#16 = .loadRegs 0x2#4 ∧ encode (.loadRegs 0x2#4) = 0b1111001001100101#16 := by decide
theorem test_word_unmapped : decode 0b1000000100101000#16 = .unmapped 0x8128#16 ∧ encode (.unmapped 0x8128#16) = 0b1000000100101000#16 := by decide

/-! Alias words (R74; V-CT-8, V-SK-7, V-SK-11, V-SK-16, V-SK-17, V-UN-12) and further unmapped ones (V-UN-2 to V-UN-10). -/

theorem test_alias_words : decode 0x0230#16 = .cls ∧ decode 0x0000#16 = .cls ∧ decode 0x0ABE#16 = .ret ∧
    decode 0x5347#16 = .seReg 0x3#4 0x4#4 ∧ decode 0x935F#16 = .sneReg 0x3#4 0x5#4 ∧ decode 0xE20E#16 = .skp 0x2#4 ∧
    decode 0xE2F1#16 = .sknp 0x2#4 := by decide
theorem test_unmapped_words : decode 0x812F#16 = .unmapped 0x812F#16 ∧ decode 0x00FB#16 = .unmapped 0x00FB#16 ∧
    decode 0xE000#16 = .unmapped 0xE000#16 ∧ decode 0xF000#16 = .unmapped 0xF000#16 ∧
    decode 0xF1FF#16 = .unmapped 0xF1FF#16 ∧ decode 0xF175#16 = .unmapped 0xF175#16 := by decide
theorem test_table_word : decodeTableWord 16 0x6005 = some (.ldImm 0x0#4 0x05#8) := by decide
theorem test_table_word_wide : decodeTableWord 32 0x6005 = none := by decide
theorem test_truncated : decodeBytes [0x60#8] = .error .truncated := by decide

/-! ## One Step on a small state -/

/-- The state after Reset with a word where the first Step fetches. -/
def prog (w : Nat) : State := State.reset.withFetchWord 16 w

/-- Registers given values. -/
def regs (s : State) : List (Nibble × Byte) → State
  | [] => s
  | (x, b) :: rest => regs (s.setReg x b) rest

/-- Bytes placed in memory. -/
def poke (s : State) (a : Nat) (bs : List Byte) : State := { s with mem := storeBytes s.glyphs s.mem a bs }

/-- The keys and the random input of the next Step. -/
def feed (s : State) (key : Word) (rnd : Byte) : State := s.supply [⟨key, rnd⟩]

/-- The stack of the vectors V-CT-6 and V-CT-9, with a count. -/
def stacked (s : State) (sc : Fin 17) : State :=
  { s with sc := sc, stk := Vector.ofFn (fun k : Fin 16 => BitVec.ofNat 16 (0x300 + k.val)) }

/-- What one Step leaves, seen through `f`. -/
def after {α : Type} (s : State) (f : State → α) : Option α :=
  match step s with
  | .next t => some (f t)
  | .fault _ => none
  | .refused _ => none

/-! ### Control transfer -/

/-- V-CT-1. -/
theorem test_jump : after (prog 0x1ABC) (fun t => t.pc) = some 0x0ABC#16 := by decide
/-- V-CT-4. -/
theorem test_call : after (prog 0x2345) (fun t => (t.pc, t.sc, t.stk[0])) = some (0x0345#16, 1, 0x0202#16) := by decide
/-- V-CT-6. -/
theorem test_call_full : after (stacked (prog 0x2400) 16) (fun t => (t.flt, t.pc, t.sc)) = some (some ⟨.stackOverflow, 0x200#16, some 0x2400#16, none⟩, 0x200#16, 16) := by decide
/-- V-CT-9. -/
theorem test_return : after (stacked (prog 0x00EE) 16) (fun t => (t.pc, t.sc)) = some (0x030F#16, 15) := by decide
/-- V-CT-10. -/
theorem test_return_empty : after (prog 0x00EE) (fun t => (t.flt, t.pc, t.sc)) = some (some ⟨.stackUnderflow, 0x200#16, some 0x00EE#16, none⟩, 0x200#16, 0) := by decide
/-- V-CT-12. -/
theorem test_jump_indexed : after (regs (prog 0xBFFF) [(0x0#4, 0xFF#8)]) (fun t => t.pc) = some 0x10FE#16 := by decide
/-- V-CT-13. -/
theorem test_jump_indexed_ignores_vx : after (regs (prog 0xB304) [(0x0#4, 0x04#8), (0x3#4, 0x77#8)]) (fun t => t.pc) = some 0x0308#16 := by decide
/-- V-TK-12. -/
theorem test_unmapped : after ({ prog 0x8128 with dt := 0x01#8, st := 0xFF#8 }) (fun t => (t.pc, t.ir, t.dt, t.st)) = some (0x202#16, 0x8128#16, 0x00#8, 0xFE#8) := by decide
/-- V-FLT-3. -/
theorem test_fetch_fault : after ({ State.reset with pc := 0x0FFF#16 }) (fun t => (t.flt, t.pc)) = some (some ⟨.fetchRange, 0x0FFF#16, none, some 0x0FFF⟩, 0x0FFF#16) := by decide
/-- V-FLT-1. -/
theorem test_last_fetch : after (poke { State.reset with pc := 0x0FFE#16 } 0xFFE [0x60#8, 0x07#8]) (fun t => (t.reg 0x0#4, t.pc)) = some (0x07#8, 0x1000#16) := by decide

/-! ### Skips -/

/-- V-SK-1. -/
theorem test_skip_se_imm : after (regs (prog 0x3342) [(0x3#4, 0x42#8), (0x4#4, 0x42#8), (0x5#4, 0x43#8)]) (fun t => t.pc) = some 0x204#16 := by decide
/-- V-SK-2. -/
theorem test_skip_se_imm_not : after (regs (prog 0x3343) [(0x3#4, 0x42#8), (0x4#4, 0x42#8), (0x5#4, 0x43#8)]) (fun t => t.pc) = some 0x202#16 := by decide
/-- V-SK-3. -/
theorem test_skip_sne_imm_not : after (regs (prog 0x4342) [(0x3#4, 0x42#8), (0x4#4, 0x42#8), (0x5#4, 0x43#8)]) (fun t => t.pc) = some 0x202#16 := by decide
/-- V-SK-4. -/
theorem test_skip_sne_imm : after (regs (prog 0x4343) [(0x3#4, 0x42#8), (0x4#4, 0x42#8), (0x5#4, 0x43#8)]) (fun t => t.pc) = some 0x204#16 := by decide
/-- V-SK-5. -/
theorem test_skip_se_reg : after (regs (prog 0x5340) [(0x3#4, 0x42#8), (0x4#4, 0x42#8), (0x5#4, 0x43#8)]) (fun t => t.pc) = some 0x204#16 := by decide
/-- V-SK-6. -/
theorem test_skip_se_reg_not : after (regs (prog 0x5350) [(0x3#4, 0x42#8), (0x4#4, 0x42#8), (0x5#4, 0x43#8)]) (fun t => t.pc) = some 0x202#16 := by decide
/-- V-SK-9. -/
theorem test_skip_sne_reg_not : after (regs (prog 0x9340) [(0x3#4, 0x42#8), (0x4#4, 0x42#8), (0x5#4, 0x43#8)]) (fun t => t.pc) = some 0x202#16 := by decide
/-- V-SK-10. -/
theorem test_skip_sne_reg : after (regs (prog 0x9350) [(0x3#4, 0x42#8), (0x4#4, 0x42#8), (0x5#4, 0x43#8)]) (fun t => t.pc) = some 0x204#16 := by decide
/-- V-SK-12. -/
theorem test_skip_skp : after (feed (regs (prog 0xE29E) [(0x2#4, 0x3A#8)]) 0x0400#16 0x00#8) (fun t => t.pc) = some 0x204#16 := by decide
/-- V-SK-13. -/
theorem test_skip_skp_not : after (feed (regs (prog 0xE29E) [(0x2#4, 0x3A#8)]) 0xFBFF#16 0x00#8) (fun t => t.pc) = some 0x202#16 := by decide
/-- V-SK-14. -/
theorem test_skip_sknp_not : after (feed (regs (prog 0xE2A1) [(0x2#4, 0x3A#8)]) 0x0400#16 0x00#8) (fun t => t.pc) = some 0x202#16 := by decide
/-- V-SK-15. -/
theorem test_skip_sknp : after (feed (regs (prog 0xE2A1) [(0x2#4, 0x3A#8)]) 0x0000#16 0x00#8) (fun t => t.pc) = some 0x204#16 := by decide

/-! ### Loads and the ALU -/

/-- V-ALU-2. -/
theorem test_ld_imm_flag : after (prog 0x6F07) (fun t => t.reg 0xF#4) = some 0x07#8 := by decide
/-- V-ALU-3. -/
theorem test_add_imm_wraps : after (regs (prog 0x7001) [(0x0#4, 0xFF#8), (0xF#4, 0x55#8)]) (fun t => (t.reg 0x0#4, t.reg 0xF#4)) = some (0x00#8, 0x55#8) := by decide
/-- V-ALU-6. -/
theorem test_move : after (regs (prog 0x8120) [(0x1#4, 0x01#8), (0x2#4, 0x7E#8)]) (fun t => (t.reg 0x1#4, t.reg 0x2#4)) = some (0x7E#8, 0x7E#8) := by decide
/-- V-ALU-7. -/
theorem test_or : after (regs (prog 0x8121) [(0x1#4, 0xF0#8), (0x2#4, 0x0F#8), (0xF#4, 0x77#8)]) (fun t => (t.reg 0x1#4, t.reg 0xF#4)) = some (0xFF#8, 0x77#8) := by decide
/-- V-ALU-8. -/
theorem test_and : after (regs (prog 0x8122) [(0x1#4, 0xF0#8), (0x2#4, 0x3C#8), (0xF#4, 0x77#8)]) (fun t => (t.reg 0x1#4, t.reg 0xF#4)) = some (0x30#8, 0x77#8) := by decide
/-- V-ALU-9. -/
theorem test_xor : after (regs (prog 0x8123) [(0x1#4, 0xF0#8), (0x2#4, 0x3C#8), (0xF#4, 0x77#8)]) (fun t => (t.reg 0x1#4, t.reg 0xF#4)) = some (0xCC#8, 0x77#8) := by decide
/-- V-ALU-15. -/
theorem test_add_carry : after (regs (prog 0x8124) [(0x1#4, 0x80#8), (0x2#4, 0x80#8)]) (fun t => (t.reg 0x1#4, t.reg 0xF#4)) = some (0x00#8, 0x01#8) := by decide
/-- V-VF-1. -/
theorem test_add_into_flag : after (regs (prog 0x8F14) [(0xF#4, 0xF0#8), (0x1#4, 0x20#8)]) (fun t => t.reg 0xF#4) = some 0x10#8 := by decide
/-- V-ALU-18. -/
theorem test_sub_equal : after (regs (prog 0x8125) [(0x1#4, 0x05#8), (0x2#4, 0x05#8), (0xF#4, 0x99#8)]) (fun t => (t.reg 0x1#4, t.reg 0xF#4)) = some (0x00#8, 0x00#8) := by decide
/-- V-VF-7. -/
theorem test_sub_flag_operand : after (regs (prog 0x81F5) [(0x1#4, 0x05#8), (0xF#4, 0x03#8)]) (fun t => (t.reg 0x1#4, t.reg 0xF#4)) = some (0x04#8, 0x01#8) := by decide
/-- V-ALU-23. -/
theorem test_shr : after (regs (prog 0x8126) [(0x1#4, 0x05#8), (0x2#4, 0xFF#8), (0xF#4, 0x99#8)]) (fun t => (t.reg 0x1#4, t.reg 0xF#4, t.reg 0x2#4)) = some (0x02#8, 0x01#8, 0xFF#8) := by decide
/-- V-VF-15. -/
theorem test_shr_flag : after (regs (prog 0x8F06) [(0xF#4, 0x03#8)]) (fun t => t.reg 0xF#4) = some 0x00#8 := by decide
/-- V-ALU-30. -/
theorem test_subn : after (regs (prog 0x8127) [(0x1#4, 0x04#8), (0x2#4, 0x03#8)]) (fun t => (t.reg 0x1#4, t.reg 0xF#4)) = some (0xFF#8, 0x00#8) := by decide
/-- V-VF-10. -/
theorem test_subn_into_flag : after (regs (prog 0x8F17) [(0xF#4, 0x02#8), (0x1#4, 0x09#8)]) (fun t => t.reg 0xF#4) = some 0x08#8 := by decide
/-- V-ALU-33. -/
theorem test_shl : after (regs (prog 0x812E) [(0x1#4, 0x81#8), (0x2#4, 0xFF#8)]) (fun t => (t.reg 0x1#4, t.reg 0xF#4, t.reg 0x2#4)) = some (0x02#8, 0x01#8, 0xFF#8) := by decide
/-- V-VF-17. -/
theorem test_shl_flag : after (regs (prog 0x8F0E) [(0xF#4, 0x80#8)]) (fun t => t.reg 0xF#4) = some 0x02#8 := by decide
/-- V-ALU-38. -/
theorem test_random : after (feed (prog 0xC10F) 0x0000#16 0xA7#8) (fun t => t.reg 0x1#4) = some 0x07#8 := by decide

/-! ### Index register and memory -/

/-- V-IDX-2. -/
theorem test_ld_i : after (prog 0xAFFF) (fun t => t.i) = some 0x0FFF#16 := by decide
/-- V-IDX-4. -/
theorem test_add_i_wraps : after ({ regs (prog 0xF21E) [(0x2#4, 0x01#8), (0xF#4, 0x33#8)] with i := 0xFFFF#16 }) (fun t => (t.i, t.reg 0xF#4)) = some (0x0000#16, 0x33#8) := by decide
/-- V-IDX-11. -/
theorem test_glyph_address : after (regs (prog 0xF329) [(0x3#4, 0xFF#8)]) (fun t => t.i) = some 0x054B#16 := by decide
/-- V-IDX-12. -/
theorem test_store_bcd : after ({ regs (prog 0xF033) [(0x0#4, 0x89#8)] with i := 0x0300#16 }) (fun t => (t.readByte 0x300, t.readByte 0x301, t.readByte 0x302, t.i)) = some (0x01#8, 0x03#8, 0x07#8, 0x0300#16) := by decide
/-- V-IDX-19. -/
theorem test_store_bcd_fault : after ({ regs (prog 0xF033) [(0x0#4, 0xFF#8)] with i := 0x0FFE#16, dt := 0x05#8 }) (fun t => (t.flt, t.dt, t.pc)) = some (some ⟨.memRange, 0x200#16, some 0xF033#16, some 0x1000⟩, 0x05#8, 0x200#16) := by decide
/-- V-IDX-20; the four listed bytes are the two of the word and the two stored. -/
theorem test_store_regs : after ({ regs (prog 0xF155) [(0x0#4, 0x11#8), (0x1#4, 0x22#8), (0x2#4, 0x33#8)] with i := 0x0300#16 }) (fun t => (t.readByte 0x300, t.readByte 0x301, t.mem.length, t.i)) = some (0x11#8, 0x22#8, 4, 0x0300#16) := by decide
/-- V-IDX-23. -/
theorem test_store_regs_fault : after ({ prog 0xFF55 with i := 0x0FF1#16 }) (fun t => (t.flt, t.mem.length)) = some (some ⟨.memRange, 0x200#16, some 0xFF55#16, some 0x1000⟩, 2) := by decide
/-- V-IDX-6. -/
theorem test_load_regs_glyph : after ({ regs (prog 0xF265) [(0x3#4, 0x77#8)] with i := 0x0050#16 }) (fun t => (t.reg 0x0#4, t.reg 0x1#4, t.reg 0x2#4, t.reg 0x3#4)) = some (0xF0#8, 0x90#8, 0x90#8, 0x77#8) := by decide
/-- V-IDX-26. -/
theorem test_load_regs_fault : after (poke { regs (prog 0xF165) [(0x0#4, 0x09#8)] with i := 0x0FFF#16 } 0xFFF [0x42#8]) (fun t => (t.flt, t.reg 0x0#4)) = some (some ⟨.memRange, 0x200#16, some 0xF165#16, some 0x1000⟩, 0x09#8) := by decide

/-! ### Display: bit `c` of row `r` is the pixel in column `c` -/

/-- V-DRW-1, with other pixels. -/
theorem test_clear : after ({ regs (prog 0x00E0) [(0xF#4, 0x01#8)] with disp := Vector.replicate 32 0x8000000000000001#64 }) (fun t => (t.disp, t.reg 0xF#4, t.pc)) = some (clearDisplay, 0x01#8, 0x202#16) := by decide
/-- V-DRW-4. -/
theorem test_draw_spills : after (poke { regs (prog 0xD011) [(0x0#4, 0x3C#8), (0x1#4, 0x02#8)] with i := 0x0300#16 } 0x300 [0xFF#8]) (fun t => (t.disp[2], t.disp[3], t.reg 0xF#4)) = some (0xF000000000000000#64, 0x000000000000000F#64, 0x00#8) := by decide
/-- V-DRW-2: pixels 2 and 5 on, then 0, 1, 3 and 5. -/
theorem test_draw_collides : after (poke { prog 0xD011 with i := 0x0300#16, disp := clearDisplay.set 0 0x24#64 } 0x300 [0xF0#8]) (fun t => (t.disp[0], t.reg 0xF#4)) = some (0x2B#64, 0x01#8) := by decide

/-! ### Timers and keys -/

/-- V-TK-1. -/
theorem test_read_delay : after ({ prog 0xF307 with dt := 0x0A#8 }) (fun t => (t.reg 0x3#4, t.dt)) = some (0x0A#8, 0x09#8) := by decide
/-- V-TK-5. -/
theorem test_write_delay : after (regs (prog 0xF215) [(0x2#4, 0x01#8)]) (fun t => t.dt) = some 0x00#8 := by decide
/-- V-TK-9. -/
theorem test_write_sound : after (regs (prog 0xF218) [(0x2#4, 0x05#8)]) (fun t => (t.st, t.soundActive)) = some (0x04#8, true) := by decide
/-- V-TK-13. -/
theorem test_wait_key_up : after (feed { regs (prog 0xF40A) [(0x4#4, 0x77#8)] with dt := 0x03#8, st := 0x02#8 } 0x0000#16 0x00#8) (fun t => (t.pc, t.reg 0x4#4, t.dt, t.st)) = some (0x200#16, 0x77#8, 0x02#8, 0x01#8) := by decide
/-- V-TK-15. -/
theorem test_wait_key_lowest : after (feed (regs (prog 0xF40A) [(0x4#4, 0x77#8)]) 0x0208#16 0x00#8) (fun t => (t.pc, t.reg 0x4#4)) = some (0x202#16, 0x03#8) := by decide

/-! ## The outside -/

theorem test_load_image : (State.reset.load [0x60#8, 0x05#8]).map (fun t => (t.mem, t.nextInstr)) =
    some ([(0x200, 0x60#8), (0x201, 0x05#8)], .ldImm 0x0#4 0x05#8) := by decide
theorem test_memory_canonical : (poke State.reset 0x050 [0x11#8, 0x90#8]).mem = [(0x050, 0x11#8)] := by decide
theorem test_reset_memory_wf : State.reset.mem.wf State.reset.glyphs = true := by decide
/-- The glyph table is an argument: another one is what Load-regs reads at 0x050, also after a later Reset (R6). -/
theorem test_other_glyphs :
    after ({ (State.resetWith (Vector.replicate 80 0x5A#8)).reinit.withFetchWord 16 0xF065 with i := 0x009F#16 })
      (fun t => t.reg 0x0#4) = some 0x5A#8 := by decide
theorem test_fetch_word_moves_pc :
    (State.withFetchWord { State.reset with pc := 0x10FE#16 } 16 0x00E0).pc = 0x200#16 := by decide

/-! ## Witnesses: states and operands that meet the hypotheses of the statements, each clause at a boundary value -/

/-- An instruction's outcome, seen through `f`. -/
def execAfter {α : Type} (i : Instr) (s : State) (f : State → α) : Option α :=
  match exec i s with
  | .next t => some (f t)
  | .fault _ => none
  | .refused _ => none

theorem after_some {α : Type} {s : State} {f : State → α} {v : α} (h : after s f = some v) :
    ∃ t, step s = .next t ∧ f t = v := by
  unfold after at h
  cases hs : step s with
  | next t => rw [hs] at h; exact ⟨t, rfl, Option.some.inj h⟩
  | fault r => rw [hs] at h; cases h
  | refused r => rw [hs] at h; cases h

theorem execAfter_some {α : Type} {i : Instr} {s : State} {f : State → α} {v : α} (h : execAfter i s f = some v) :
    ∃ t, exec i s = .next t ∧ f t = v := by
  unfold execAfter at h
  cases hs : exec i s with
  | next t => rw [hs] at h; exact ⟨t, rfl, Option.some.inj h⟩
  | fault r => rw [hs] at h; cases h
  | refused r => rw [hs] at h; cases h

theorem not_runs {s : State} {i j : Instr} (h : s.Runs i) (hne : i ≠ j) : ¬ s.Runs j :=
  fun hj => hne (State.runs_unique h hj)

/-- A Step that runs `i` to its end. -/
def Completes (s : State) (i : Instr) : Prop := s.Runs i ∧ ∃ t, step s = .next t ∧ t.flt = none

theorem completes {s : State} {i : Instr} (h1 : s.flt = none) (h2 : s.pc.toNat + 1 ≤ 0xFFF) (h3 : decode s.fetchWord = i)
    (h4 : after s State.flt = some none) : Completes s i := ⟨⟨h1, h2, h3⟩, after_some h4⟩

/-! ### Encoding -/

theorem witness_DecodeEncodeRoundTrip : Instr.WellFormed (.unmapped 0x8128#16) ∧ Instr.WellFormed (.ldImm 0xF#4 0xFF#8) := by
  decide
theorem witness_UnmappedSpaceIsExact : decode 0xF1FF#16 = .unmapped 0xF1FF#16 := by decide
theorem witness_AliasWordsDecodeAlike :
    0x0FF0#16 &&& 0xF00F#16 = 0x0000#16 ∧ 0x0FFE#16 &&& 0xF00F#16 = 0x000E#16 ∧
    (0x534F#16 &&& 0xF000#16 = 0x5000#16 ∧ 0x534F#16 &&& 0xFFF0#16 = 0x5340#16 &&& 0xFFF0#16) ∧
    (0x934F#16 &&& 0xF000#16 = 0x9000#16 ∧ 0x934F#16 &&& 0xFFF0#16 = 0x9340#16 &&& 0xFFF0#16) ∧
    (0xE20E#16 &&& 0xF000#16 = 0xE000#16 ∧ decode 0xE20E#16 ≠ .unmapped 0xE20E#16 ∧
      0xE20E#16 &&& 0xFF0F#16 = 0xE29E#16 &&& 0xFF0F#16) := by decide

/-! ### The Step -/

/-- Bytes 60 07 at the last address a word can be fetched from (V-FLT-1), and a Return with an empty stack (V-CT-10). -/
theorem witness_StepRunsDecodedInstruction :
    (∃ (s : State) (rest : List Byte), s.flt = none ∧ s.pc.toNat + 1 = 0xFFF ∧
      decodeBytes (s.readByte s.pc.toNat :: s.readByte (s.pc.toNat + 1) :: rest) = .ok (.ldImm 0x0#4 0x07#8, rest) ∧
      ∃ t, exec (.ldImm 0x0#4 0x07#8) { s with ir := s.fetchWord, pc := s.pc + 2#16 } = .next t ∧ t.flt = none) ∧
    (∃ (s : State) (rest : List Byte), s.flt = none ∧ s.pc.toNat + 1 ≤ 0xFFF ∧
      decodeBytes (s.readByte s.pc.toNat :: s.readByte (s.pc.toNat + 1) :: rest) = .ok (.ret, rest) ∧
      ∃ t, exec .ret { s with ir := s.fetchWord, pc := s.pc + 2#16 } = .next t ∧
        t.flt = some ⟨.stackUnderflow, 0x200#16, some 0x00EE#16, none⟩) :=
  ⟨⟨poke { State.reset with pc := 0x0FFE#16 } 0xFFE [0x60#8, 0x07#8], [], by decide, by decide, by decide,
      execAfter_some (f := State.flt) (by decide)⟩,
    ⟨prog 0x00EE, [0x12#8], by decide, by decide, by decide, execAfter_some (f := State.flt) (by decide)⟩⟩

/-- A halted state. -/
def halted : State := { State.reset with flt := some ⟨.stackUnderflow, 0x200#16, some 0x00EE#16, none⟩ }

theorem witness_HaltedStepChangesNothing : halted.flt ≠ none := by decide
theorem witness_FetchAboveMemoryFaults :
    (∃ s : State, s.flt = none ∧ s.pc.toNat = 0xFFF) ∧ ∃ s : State, s.flt = none ∧ s.pc.toNat = 0xFFFF :=
  ⟨⟨{ State.reset with pc := 0x0FFF#16 }, by decide, by decide⟩,
    ⟨{ State.reset with pc := 0xFFFF#16 }, by decide, by decide⟩⟩
theorem witness_FaultingStepCommitsNothing :
    (∃ s t : State, s.flt = none ∧ step s = .next t ∧ t.flt = some ⟨.stackUnderflow, 0x200#16, some 0x00EE#16, none⟩) ∧
    ∃ s t : State, s.flt = none ∧ step s = .next t ∧ t.flt = some ⟨.fetchRange, 0x0FFF#16, none, some 0x0FFF⟩ :=
  ⟨⟨prog 0x00EE, _, by decide, (after_some (f := State.flt) (by decide)).choose_spec⟩,
    ⟨{ State.reset with pc := 0x0FFF#16 }, _, by decide, (after_some (f := State.flt) (by decide)).choose_spec⟩⟩

/-- A sprite row of eight set bits drawn at the last row's column 60 (V-DRW-8). -/
def spilling : State := poke { regs (prog 0xD011) [(0x0#4, 0x3C#8), (0x1#4, 0x1F#8)] with i := 0x0300#16 } 0x300 [0xFF#8]

/-- Each of the five causes, with the vectors V-FLT-3, V-IDX-19, V-DRW-8, V-CT-6 and V-CT-10. -/
theorem witness_FaultsOnlyOnTheirConditions :
    ∀ c : FltCause, ∃ (s t : State) (f : FltRecord), s.flt = none ∧ step s = .next t ∧ t.flt = some f ∧ f.cause = c := by
  intro c
  have key : ∀ s : State, s.flt = none → after s (fun t => t.flt.map FltRecord.cause) = some (some c) →
      ∃ (s t : State) (f : FltRecord), s.flt = none ∧ step s = .next t ∧ t.flt = some f ∧ f.cause = c := by
    intro s hs h
    obtain ⟨t, ht, hc⟩ := after_some h
    obtain ⟨f, hf, hc⟩ := Option.map_eq_some_iff.mp hc
    exact ⟨s, t, f, hs, ht, hf, hc⟩
  cases c with
  | fetchRange => exact key { State.reset with pc := 0x0FFF#16 } (by decide) (by decide)
  | memRange => exact key { prog 0xF033 with i := 0x0FFE#16 } (by decide) (by decide)
  | displayRange => exact key spilling (by decide) (by decide)
  | stackOverflow => exact key (stacked (prog 0x2400) 16) (by decide) (by decide)
  | stackUnderflow => exact key (prog 0x00EE) (by decide) (by decide)

theorem witness_TimersDecayEachStep :
    Completes (prog 0x00E0) .cls ∧ Completes (prog 0xF215) (.ldDtVx 0x2#4) ∧ Completes (prog 0xF218) (.ldStVx 0x2#4) :=
  ⟨completes (by decide) (by decide) (by decide) (by decide), completes (by decide) (by decide) (by decide) (by decide),
    completes (by decide) (by decide) (by decide) (by decide)⟩

/-- One state for each row of the table of R25, the conditional ones both ways. -/
theorem witness_ProgramCounterAfterStep :
    Completes (stacked (prog 0x00EE) 16) .ret ∧ Completes (prog 0x1FFF) (.jp 0xFFF#12) ∧
    Completes (prog 0x2345) (.call 0x345#12) ∧ Completes (regs (prog 0xBFFF) [(0x0#4, 0xFF#8)]) (.jpV0 0xFFF#12) ∧
    Completes (prog 0x3000) (.seImm 0x0#4 0x00#8) ∧ Completes (prog 0x4000) (.sneImm 0x0#4 0x00#8) ∧
    Completes (prog 0x5010) (.seReg 0x0#4 0x1#4) ∧ Completes (prog 0x9010) (.sneReg 0x0#4 0x1#4) ∧
    Completes (feed (prog 0xE09E) 0x0001#16 0x00#8) (.skp 0x0#4) ∧
    Completes (feed (prog 0xE0A1) 0x0001#16 0x00#8) (.sknp 0x0#4) ∧
    Completes (feed (prog 0xF00A) 0x0000#16 0x00#8) (.ldVxK 0x0#4) ∧
    Completes (feed (prog 0xF00A) 0x8000#16 0x00#8) (.ldVxK 0x0#4) ∧ Completes (prog 0x6005) (.ldImm 0x0#4 0x05#8) := by
  refine ⟨?_, ?_, ?_, ?_, ?_, ?_, ?_, ?_, ?_, ?_, ?_, ?_, ?_⟩ <;> exact completes (by decide) (by decide) (by decide) (by decide)

theorem witness_StackTouchedOnlyByCallAndReturn :
    (∃ s t : State, step s = .next t ∧ (∀ nnn, ¬ s.Runs (.call nnn)) ∧ ¬ s.Runs .ret) ∧
    (∃ s t : State, step s = .next t ∧ t.sc.val = s.sc.val + 1) ∧ ∃ s t : State, step s = .next t ∧ t.sc.val + 1 = s.sc.val :=
  ⟨⟨prog 0x00E0, _, rfl, fun _ => not_runs (i := .cls) ⟨by decide, by decide, by decide⟩ (by simp),
      not_runs (i := .cls) ⟨by decide, by decide, by decide⟩ (by simp)⟩,
    ⟨stacked (prog 0x2400) 15, _, (after_some (f := fun t => t.sc.val) (v := 16) (by decide)).choose_spec⟩,
    ⟨stacked (prog 0x00EE) 1, _, by
      have h := (after_some (s := stacked (prog 0x00EE) 1) (f := fun t => t.sc.val) (v := 0) (by decide)).choose_spec
      exact ⟨h.1, by rw [h.2]; rfl⟩⟩⟩
theorem witness_DisplayWrittenOnlyByClearAndDraw :
    ∃ s t : State, step s = .next t ∧ ¬ s.Runs .cls ∧ ∀ x y n, ¬ s.Runs (.drw x y n) :=
  ⟨prog 0x6005, _, rfl, not_runs (i := .ldImm 0x0#4 0x05#8) ⟨by decide, by decide, by decide⟩ (by simp),
    fun _ _ _ => not_runs (i := .ldImm 0x0#4 0x05#8) ⟨by decide, by decide, by decide⟩ (by simp)⟩
theorem witness_MemoryWrittenOnlyByStores :
    ∃ s t : State, step s = .next t ∧ (∀ x, ¬ s.Runs (.ldB x)) ∧ ∀ x, ¬ s.Runs (.storeRegs x) :=
  ⟨prog 0x6005, _, rfl, fun _ => not_runs (i := .ldImm 0x0#4 0x05#8) ⟨by decide, by decide, by decide⟩ (by simp),
    fun _ => not_runs (i := .ldImm 0x0#4 0x05#8) ⟨by decide, by decide, by decide⟩ (by simp)⟩
theorem witness_IndexWrittenOnlyByThree : ∃ s t : State, step s = .next t ∧ (∀ nnn, ¬ s.Runs (.ldI nnn)) ∧
    (∀ x, ¬ s.Runs (.addI x)) ∧ ∀ x, ¬ s.Runs (.ldF x) :=
  ⟨prog 0x6005, _, rfl, fun _ => not_runs (i := .ldImm 0x0#4 0x05#8) ⟨by decide, by decide, by decide⟩ (by simp),
    fun _ => not_runs (i := .ldImm 0x0#4 0x05#8) ⟨by decide, by decide, by decide⟩ (by simp),
    fun _ => not_runs (i := .ldImm 0x0#4 0x05#8) ⟨by decide, by decide, by decide⟩ (by simp)⟩
theorem witness_FlagRegisterWriters :
    Completes (prog 0x1FFF) (.jp 0xFFF#12) ∧ Completes (prog 0x6EFF) (.ldImm 0xE#4 0xFF#8) ∧
    Completes { prog 0xFE65 with i := 0x0FF1#16 } (.loadRegs 0xE#4) :=
  ⟨completes (by decide) (by decide) (by decide) (by decide), completes (by decide) (by decide) (by decide) (by decide),
    completes (by decide) (by decide) (by decide) (by decide)⟩
theorem witness_InputsReachOnlyTheirReaders :
    (∃ s s' t : State, s.Runs (.rnd 0x1#4 0x0F#8) ∧ OnlyInputsDiffer s s' ∧ step s = .next t ∧ s.rnd = s'.rnd ∧ s.key ≠ s'.key) ∧
    ∃ s s' t : State, s.Runs (.skp 0x2#4) ∧ OnlyInputsDiffer s s' ∧ step s = .next t ∧ s.key = s'.key ∧ s.rnd ≠ s'.rnd :=
  ⟨⟨feed (prog 0xC10F) 0x0000#16 0xA7#8, feed (prog 0xC10F) 0xFFFF#16 0xA7#8, _, ⟨by decide, by decide, by decide⟩, rfl, rfl,
      by decide, by decide⟩,
    ⟨feed (prog 0xE29E) 0x0001#16 0x00#8, feed (prog 0xE29E) 0x0001#16 0xFF#8, _, ⟨by decide, by decide, by decide⟩, rfl,
      rfl, by decide, by decide⟩⟩

/-! ### Invariant and reset -/

theorem witness_StepKeepsInv :
    (∃ s t : State, s.Inv ∧ step s = .next t) ∧
    (∃ s t : State, s.Inv ∧ s.pc.toNat = 0x10FE ∧ step s = .next t) ∧
    ∃ s t : State, s.Inv ∧ s.sc.val = 16 ∧ step s = .next t ∧ t.flt ≠ none :=
  ⟨⟨prog 0x6005, _, by decide, rfl⟩, ⟨{ State.reset with pc := 0x10FE#16 }, _, by decide, by decide, rfl⟩,
    ⟨stacked (prog 0x2400) 16, _, by decide, by decide, by
      have h := (after_some (s := stacked (prog 0x2400) 16) (f := fun t => t.flt.isSome) (v := true)
        (by decide)).choose_spec
      refine ⟨h.1, fun hn => ?_⟩
      have h2 := h.2
      rw [hn] at h2
      cases h2⟩⟩
theorem witness_CanonicalMemoryIsUnique :
    ∃ (g : GlyphTable) (m k : Memory), m.wf g = true ∧ k.wf g = true ∧ (∀ a, knownByte g m a = knownByte g k a) ∧ m ≠ [] :=
  ⟨defaultGlyphs, (poke State.reset 0xFFE [0x12#8, 0x34#8]).mem, [(0xFFE, 0x12#8), (0xFFF, 0x34#8)], by decide, by decide, fun _ => rfl,
    by decide⟩
theorem witness_reset_addresses : (79 < 80 ∧ 2047 < 2048) ∧ (0x04F < 0x050 ∨ 0x0A0 ≤ 0x04F) ∧
    (0x0A0 < 0x050 ∨ 0x0A0 ≤ 0x0A0) := by decide

/-! ### Control transfer and skips -/

theorem witness_JumpsSetProgramCounter :
    0x1FFF#16 &&& 0xF000#16 = 0x1000#16 ∧ 0xBFFF#16 &&& 0xF000#16 = 0xB000#16 := by decide
theorem witness_CallPushesReturnAddress : 0x2FFF#16 &&& 0xF000#16 = 0x2000#16 ∧
    (stacked State.reset 15).sc.val < 16 ∧ (stacked State.reset 16).sc.val = 16 := by decide
theorem witness_ReturnPopsProgramCounter : 0x0FFE#16 &&& 0xF00F#16 = 0x000E#16 ∧
    (stacked State.reset 16).sc.val = (15 : Fin 16).val + 1 ∧ (stacked State.reset 1).sc.val = (0 : Fin 16).val + 1 ∧
    State.reset.sc.val = 0 := by decide
theorem witness_CallThenReturnRestoresProgramCounter :
    ∃ s t : State, s.sc.val = 15 ∧ exec (.call 0x204#12) s = .next t :=
  ⟨stacked State.reset 15, _, by decide, rfl⟩
theorem witness_SelfJumpParks : (prog 0x1200).Runs (.jp 0x200#12) ∧ (prog 0x1200).pc.toNat = (0x200#12).toNat :=
  ⟨⟨by decide, by decide, by decide⟩, by decide⟩
theorem witness_ImmediateSkips : 0x3FFF#16 &&& 0xF000#16 = 0x3000#16 ∧ 0x4FFF#16 &&& 0xF000#16 = 0x4000#16 ∧
    State.reset.reg 0xF#4 = 0x00#8 ∧ State.reset.reg 0xF#4 ≠ 0xFF#8 := by decide
theorem witness_RegisterSkips : 0x5FFF#16 &&& 0xF000#16 = 0x5000#16 ∧ 0x9FFF#16 &&& 0xF000#16 = 0x9000#16 ∧
    State.reset.reg 0x0#4 = State.reset.reg 0xF#4 ∧
    (regs State.reset [(0x0#4, 0x01#8)]).reg 0x0#4 ≠ (regs State.reset [(0x0#4, 0x01#8)]).reg 0xF#4 := by decide
theorem witness_KeySkips : 0xEFFE#16 &&& 0xF00F#16 = 0xE00E#16 ∧ 0xEFF1#16 &&& 0xF00F#16 = 0xE001#16 ∧
    (feed (regs State.reset [(0x2#4, 0xFF#8)]) 0x8000#16 0x00#8).key.getLsbD
      (((regs State.reset [(0x2#4, 0xFF#8)]).reg 0x2#4).toNat % 16) = true ∧
    (feed (regs State.reset [(0x2#4, 0xFF#8)]) 0x7FFF#16 0x00#8).key.getLsbD
      (((regs State.reset [(0x2#4, 0xFF#8)]).reg 0x2#4).toNat % 16) = false := by decide

/-! ### Loads and the ALU -/

theorem witness_ImmediateLoadAndAdd :
    0x6FFF#16 &&& 0xF000#16 = 0x6000#16 ∧ 0x7FFF#16 &&& 0xF000#16 = 0x7000#16 := by decide
theorem witness_MoveAndLogic : 0x8FF0#16 &&& 0xF00F#16 = 0x8000#16 ∧ 0x8FF1#16 &&& 0xF00F#16 = 0x8001#16 ∧
    0x8FF2#16 &&& 0xF00F#16 = 0x8002#16 ∧ 0x8FF3#16 &&& 0xF00F#16 = 0x8003#16 := by decide
theorem witness_AddSetsCarry : 0x8FF4#16 &&& 0xF00F#16 = 0x8004#16 ∧ 0xE#4 ≠ 0xF#4 ∧ 0x0#4 ≠ 0xE#4 := by decide
theorem witness_SubtractionsSetGreaterFlag : 0x8FF5#16 &&& 0xF00F#16 = 0x8005#16 ∧
    0x8FF7#16 &&& 0xF00F#16 = 0x8007#16 ∧ 0xE#4 ≠ 0xF#4 ∧ 0x0#4 ≠ 0xF#4 ∧ 0x0#4 ≠ 0xE#4 := by decide
theorem witness_ShiftRightDropsLowBit : 0x8FF6#16 &&& 0xF00F#16 = 0x8006#16 ∧ 0xE#4 ≠ 0xF#4 ∧ 0x0#4 ≠ 0xE#4 := by decide
theorem witness_ShiftLeftDropsHighBit : 0x8FFE#16 &&& 0xF00F#16 = 0x800E#16 ∧ 0xE#4 ≠ 0xF#4 ∧ 0x0#4 ≠ 0xE#4 := by decide
theorem witness_FlagRegisterAsOperand :
    (∃ (y : Nibble) (s : State) (b : Nat), y ≠ 0xF#4 ∧
      b = (if (s.reg 0xF#4).toNat > (s.reg y).toNat then 1 else 0) ∧ b = 1) ∧
    (∃ (x : Nibble) (s : State) (b : Nat), x ≠ 0xF#4 ∧
      b = (if (s.reg x).toNat > (s.reg 0xF#4).toNat then 1 else 0) ∧ b = 1) ∧
    ∃ (x : Nibble) (s : State) (b : Nat), x ≠ 0xF#4 ∧
      b = (if (s.reg x).toNat > (s.reg 0xF#4).toNat then 1 else 0) ∧ b = 0 :=
  ⟨⟨0x1#4, regs State.reset [(0xF#4, 0x05#8), (0x1#4, 0x03#8)], 1, by decide, by decide, rfl⟩,
    ⟨0xE#4, regs State.reset [(0xE#4, 0x01#8)], 1, by decide, by decide, rfl⟩, ⟨0xE#4, State.reset, 0, by decide, by decide, rfl⟩⟩
theorem witness_RandomIsMaskedInput : 0xCFFF#16 &&& 0xF000#16 = 0xC000#16 := by decide

/-! ### Index register and memory -/

/-- The state after Reset with an index. -/
def indexed (i : Word) : State := { State.reset with i := i }

theorem witness_IndexRegisterWrites : 0xAFFF#16 &&& 0xF000#16 = 0xA000#16 ∧ 0xFF1E#16 &&& 0xF0FF#16 = 0xF01E#16 ∧
    0xFF29#16 &&& 0xF0FF#16 = 0xF029#16 := by decide
theorem witness_StoreBcdWritesDigits : 0xFF33#16 &&& 0xF0FF#16 = 0xF033#16 ∧ (indexed 0x0FFD#16).i.toNat + 2 ≤ 0xFFF ∧
    0xFFF < (indexed 0x0FFE#16).i.toNat + 2 ∧ (0xFFC < (indexed 0x0FFD#16).i.toNat ∨ (indexed 0x0FFD#16).i.toNat + 2 < 0xFFC) := by
  decide
theorem witness_StoreRegsWritesRegisters : 0xFF55#16 &&& 0xF0FF#16 = 0xF055#16 ∧
    (indexed 0x0FF0#16).i.toNat + (0xF#4).toNat ≤ 0xFFF ∧ 0xFFF < (indexed 0x0FF1#16).i.toNat + (0xF#4).toNat ∧
    (0xF#4).toNat ≤ (0xF#4).toNat := by decide
theorem witness_LoadRegsReadsMemory : 0xFF65#16 &&& 0xF0FF#16 = 0xF065#16 ∧
    (indexed 0x0FFF#16).i.toNat + (0x0#4).toNat ≤ 0xFFF ∧ 0xFFF < (indexed 0x1000#16).i.toNat + (0x0#4).toNat := by decide
theorem witness_StoreThenLoadRestoresRegisters :
    ∃ (x : Nibble) (s t : State) (v : Vector Byte 16), s.i.toNat + x.toNat = 0xFFF ∧
      (∀ r : Nibble, x.toNat < r.toNat → v[r.toNat]'r.isLt = s.reg r) ∧ exec (.storeRegs x) s = .next t :=
  ⟨0xE#4, indexed 0x0FF1#16, _, Vector.replicate 16 0#8, by decide, by decide, rfl⟩
theorem witness_MemoryReadsLatestWrite : 0xFFF ≤ 0xFFF ∧ 0xFFE ≠ 0xFFF ∧ State.reset.mem.wf State.reset.glyphs = true := by decide
/-- A state that runs the word at 0xFFC, so that the next word is the last one of the space, with an index. -/
def storing (w : Nat) (i : Word) : State := { State.withFetchWord { State.reset with pc := 0x0FFC#16 } 16 w with i := i }

/-- Store-regs over the whole next word with its last byte at 0xFFF, over one half of it only, and beside it. -/
theorem witness_StoreSeenByNextFetch :
    (∃ s t : State, s.Runs (.storeRegs 0xF#4) ∧ s.i.toNat + (0xF#4).toNat = 0xFFF ∧ s.pc.toNat + 3 = 0xFFF ∧
      step s = .next t ∧ s.i.toNat + (0xE#4).toNat = s.pc.toNat + 2 ∧ s.i.toNat + (0xF#4).toNat = s.pc.toNat + 3) ∧
    (∃ s t : State, s.Runs (.storeRegs 0x0#4) ∧ s.i.toNat + (0x0#4).toNat = 0xFFF ∧ s.pc.toNat + 3 = 0xFFF ∧
      step s = .next t ∧ s.pc.toNat + 2 < s.i.toNat) ∧
    ∃ s t : State, s.Runs (.storeRegs 0x0#4) ∧ s.i.toNat + (0x0#4).toNat ≤ 0xFFF ∧ s.pc.toNat + 3 = 0xFFF ∧
      step s = .next t ∧ s.i.toNat + (0x0#4).toNat = s.pc.toNat + 2 ∧ s.i.toNat + (0x0#4).toNat < s.pc.toNat + 3 :=
  ⟨⟨storing 0xFF55 0x0FF0#16, _, ⟨by decide, by decide, by decide⟩, by decide, by decide, rfl, by decide, by decide⟩,
    ⟨storing 0xF055 0x0FFF#16, _, ⟨by decide, by decide, by decide⟩, by decide, by decide, rfl, by decide⟩,
    ⟨storing 0xF055 0x0FFE#16, _, ⟨by decide, by decide, by decide⟩, by decide, by decide, rfl, by decide, by decide⟩⟩

/-- Store-BCD with its last two digits over the next word, with its last digit over the first half, and below it. -/
theorem witness_StoreSeenByNextFetch_bcd :
    (∃ s t : State, s.Runs (.ldB 0xF#4) ∧ s.i.toNat + 2 = 0xFFF ∧ s.pc.toNat + 3 = 0xFFF ∧ step s = .next t ∧
      s.i.toNat + 1 = s.pc.toNat + 2 ∧ s.i.toNat + 2 = s.pc.toNat + 3) ∧
    (∃ s t : State, s.Runs (.ldB 0xF#4) ∧ s.i.toNat + 2 ≤ 0xFFF ∧ s.pc.toNat + 3 = 0xFFF ∧ step s = .next t ∧
      s.i.toNat + 2 = s.pc.toNat + 2 ∧ s.i.toNat + 2 < s.pc.toNat + 3) ∧
    ∃ s t : State, s.Runs (.ldB 0xF#4) ∧ s.i.toNat + 2 ≤ 0xFFF ∧ s.pc.toNat + 3 = 0xFFF ∧ step s = .next t ∧
      s.i.toNat + 2 < s.pc.toNat + 2 :=
  ⟨⟨storing 0xFF33 0x0FFD#16, _, ⟨by decide, by decide, by decide⟩, by decide, by decide, rfl, by decide, by decide⟩,
    ⟨storing 0xFF33 0x0FFC#16, _, ⟨by decide, by decide, by decide⟩, by decide, by decide, rfl, by decide, by decide⟩,
    ⟨storing 0xFF33 0x0FFB#16, _, ⟨by decide, by decide, by decide⟩, by decide, by decide, rfl, by decide⟩⟩

/-! ### Display -/

/-- A sprite row of one set bit drawn at the last cell (V-DRW-7). -/
def lastCell : State := poke { regs State.reset [(0x0#4, 0xFF#8), (0x1#4, 0xFF#8)] with i := 0x0300#16 } 0x300 [0x80#8]

theorem lastCell_covers (idx : Nat) : lastCell.Covers 0x0#4 0x1#4 0x1#4 idx ↔ idx = 2047 := by
  rw [← State.mem_drawnPixels, show lastCell.drawnPixels 0x0#4 0x1#4 0x1#4 = [2047] by decide, List.mem_singleton]

theorem witness_ClearTurnsPixelsOff : 0x0FF0#16 &&& 0xF00F#16 = 0x0000#16 := by decide
theorem witness_DrawTogglesCoveredPixels : 0xDFFF#16 &&& 0xF000#16 = 0xD000#16 ∧
    (∃ s : State, (0x1#4 = 0#4 ∨ s.i.toNat + (0x1#4).toNat ≤ 0x1000) ∧
      (∀ idx, s.Covers 0x0#4 0x1#4 0x1#4 idx → idx ≤ 2047) ∧ s.Covers 0x0#4 0x1#4 0x1#4 2047 ∧
      (∀ idx, s.Covers 0x0#4 0x1#4 0x1#4 idx → s.pixel idx = false) ∧ ¬ s.Covers 0x0#4 0x1#4 0x1#4 2046) ∧
    (∃ s : State, (∀ idx, s.Covers 0x0#4 0x1#4 0x1#4 idx → idx ≤ 2047) ∧
      ∃ idx, s.Covers 0x0#4 0x1#4 0x1#4 idx ∧ s.pixel idx = true) ∧
    ∃ s : State, s.i.toNat = 0xFFFF ∧ ∀ idx, s.Covers 0x0#4 0x1#4 0x0#4 idx → idx ≤ 2047 := by
  refine ⟨by decide, ⟨lastCell, by decide, fun idx h => by rw [(lastCell_covers idx).mp h], (lastCell_covers _).mpr rfl,
    fun idx h => by rw [(lastCell_covers idx).mp h]; decide, fun h => absurd ((lastCell_covers _).mp h) (by decide)⟩,
    ⟨{ lastCell with disp := clearDisplay.set 31 0x8000000000000000#64 },
      fun idx h => by rw [(lastCell_covers idx).mp h], 2047, (lastCell_covers _).mpr rfl, by decide⟩,
    ⟨indexed 0xFFFF#16, by decide, ?_⟩⟩
  rintro idx ⟨r, c, ⟨hr, -⟩, -⟩
  exact absurd hr (Nat.not_lt_zero r)
theorem witness_DrawFaults :
    (∃ (n : Nibble) (s : State), n ≠ 0#4 ∧ 0x1000 < s.i.toNat + n.toNat) ∧
    ∃ s : State, s.i.toNat + (0x1#4).toNat ≤ 0x1000 ∧ s.SpriteBit 0x1#4 0 4 ∧ s.spriteIndex 0x0#4 0x1#4 0 4 = 2048 ∧
      ∀ r' c', s.SpriteBit 0x1#4 r' c' → 2047 < s.spriteIndex 0x0#4 0x1#4 r' c' → 0 < r' ∨ 0 = r' ∧ 4 ≤ c' := by
  refine ⟨⟨0x1#4, indexed 0x1000#16, by decide, by decide⟩, spilling, by decide, ⟨by decide, by decide, by decide⟩,
    by decide, ?_⟩
  rintro r' c' - h
  by_cases hr : r' = 0
  · subst hr
    have h0 : (spilling.reg 0x0#4).toNat % 64 = 60 := by decide
    have h1 : (spilling.reg 0x1#4).toNat % 32 = 31 := by decide
    simp only [State.spriteIndex, h0, h1] at h
    exact .inr ⟨rfl, by omega⟩
  · exact .inl (Nat.pos_of_ne_zero hr)
theorem witness_DrawTwiceRestoresDisplay :
    ∃ s t : State, s.flt = none ∧ exec (.drw 0x0#4 0x1#4 0x1#4) s = .next t ∧ t.flt = none ∧ t.reg 0x0#4 = s.reg 0x0#4 ∧
      t.reg 0x1#4 = s.reg 0x1#4 ∧ ∃ idx, s.Covers 0x0#4 0x1#4 0x1#4 idx ∧ s.pixel idx = false := by
  obtain ⟨t, ht, h⟩ := execAfter_some (i := .drw 0x0#4 0x1#4 0x1#4) (s := lastCell)
    (f := fun t => (t.flt, t.reg 0x0#4, t.reg 0x1#4)) (v := (none, 0xFF#8, 0xFF#8)) (by decide)
  have h1 := congrArg Prod.fst h
  have h2 := congrArg (fun p => p.2.1) h
  have h3 := congrArg (fun p => p.2.2) h
  exact ⟨lastCell, t, by decide, ht, h1, h2, h3, 2047, (lastCell_covers _).mpr rfl, by decide⟩
/-- The same sprite over the last cell when it is on. -/
theorem witness_DrawTwiceRestoresDisplay_all_on : ∃ s t : State, s.flt = none ∧ exec (.drw 0x0#4 0x1#4 0x1#4) s = .next t ∧
    t.flt = none ∧ t.reg 0x0#4 = s.reg 0x0#4 ∧ t.reg 0x1#4 = s.reg 0x1#4 ∧ s.Covers 0x0#4 0x1#4 0x1#4 2047 ∧
      ∀ idx, s.Covers 0x0#4 0x1#4 0x1#4 idx → s.pixel idx = true := by
  obtain ⟨t, ht, h⟩ := execAfter_some (i := .drw 0x0#4 0x1#4 0x1#4)
    (s := { lastCell with disp := clearDisplay.set 31 0x8000000000000000#64 })
    (f := fun t => (t.flt, t.reg 0x0#4, t.reg 0x1#4)) (v := (none, 0xFF#8, 0xFF#8)) (by decide)
  exact ⟨_, t, by decide, ht, congrArg Prod.fst h, congrArg (fun p => p.2.1) h, congrArg (fun p => p.2.2) h,
    (lastCell_covers _).mpr rfl, fun idx h => by rw [(lastCell_covers idx).mp h]; decide⟩

/-! ### Timers, keys, the no-op, the outside -/

theorem witness_ReadDelayGivesTimer :
    0xFF07#16 &&& 0xF0FF#16 = 0xF007#16 ∧ (prog 0xF307).Runs (.ldVxDt 0x3#4) :=
  ⟨by decide, by decide, by decide, by decide⟩
theorem witness_WaitKeyTakesLowestKey : 0xFF0A#16 &&& 0xF0FF#16 = 0xF00A#16 ∧
    (∃ s : State, s.key.getLsbD 15 = true ∧ ∀ j, j < 15 → s.key.getLsbD j = false) ∧
    (∃ s : State, ∀ k, k < 16 → s.key.getLsbD k = false) ∧
    ∃ s : State, s.Runs (.ldVxK 0x4#4) ∧ s.key = 0#16 :=
  ⟨by decide, ⟨feed State.reset 0x8000#16 0x00#8, by decide, by decide⟩, ⟨feed State.reset 0x0000#16 0x00#8, by decide⟩,
    ⟨feed (prog 0xF40A) 0x0000#16 0x00#8, ⟨by decide, by decide, by decide⟩, by decide⟩⟩
theorem witness_TimerWritesDecayAtOnce : 0xFF15#16 &&& 0xF0FF#16 = 0xF015#16 ∧ 0xFF18#16 &&& 0xF0FF#16 = 0xF018#16 ∧
    (prog 0xF215).Runs (.ldDtVx 0x2#4) ∧ (prog 0xF218).Runs (.ldStVx 0x2#4) :=
  ⟨by decide, by decide, ⟨by decide, by decide, by decide⟩, by decide, by decide, by decide⟩
theorem witness_UnmappedWordIsNoOp : (∀ row ∈ opcodeRows, row.hits 0x8128#16 = false) ∧
    (prog 0x8128).Runs (.unmapped 0x8128#16) :=
  ⟨Laws.Canonical.unmapped 0x8128#16 (by decide), by decide, by decide, by decide⟩
theorem witness_LoaderPlacesImage : (List.replicate 3584 0#8).length ≤ 3584 ∧ 3584 < (List.replicate 3585 0#8).length := by
  simp only [List.length_replicate]; decide
theorem witness_LoaderPlacesImage_write :
    (∃ t, State.reset.loaderWrite 0x200 0x60#8 = some t) ∧ (∃ t, State.reset.loaderWrite 0xFFF 0x60#8 = some t) ∧
    State.reset.loaderWrite 0x1FF 0x60#8 = none ∧ State.reset.loaderWrite 0x1000 0x60#8 = none ∧
    State.reset.mem.wf State.reset.glyphs = true :=
  ⟨⟨_, rfl⟩, ⟨_, rfl⟩, rfl, rfl, by decide⟩

end Sys2Proof.Tests
end

section
/-! The operand fields of an instruction word, as numbers (spec/00_scope.md R8). -/

namespace Sys2Proof

/-- A bit range of a word, as a number: drop the bits below it, keep as many as it is long. Every field is one. -/
theorem extract_toNat (w : Word) (start len : Nat) :
    (w.extractLsb' start len).toNat = w.toNat / 2 ^ start % 2 ^ len := by
  rw [BitVec.extractLsb'_toNat, Nat.shiftRight_eq_div_pow]

/-- The fields that begin at bit 0 are remainders. -/
theorem lowBits_toNat (w : Word) (len : Nat) : (w.extractLsb' 0 len).toNat = w.toNat % 2 ^ len := by
  rw [extract_toNat, Nat.pow_zero, Nat.div_one]

/-- The primary key needs no bound from above: a word has no bit beyond it. -/
theorem fieldP_toNat (w : Word) : (fieldP w).toNat = w.toNat / 4096 := by
  have hrange : (fieldP w).toNat = w.toNat / 2 ^ 12 % 2 ^ 4 := extract_toNat w 12 4
  have hword : w.toNat < 2 ^ 16 := w.isLt
  omega

theorem fieldX_toNat (w : Word) : (fieldX w).toNat = w.toNat / 256 % 16 := extract_toNat w 8 4

theorem fieldY_toNat (w : Word) : (fieldY w).toNat = w.toNat / 16 % 16 := extract_toNat w 4 4

theorem fieldN_toNat (w : Word) : (fieldN w).toNat = w.toNat % 16 := lowBits_toNat w 4

theorem fieldKk_toNat (w : Word) : (fieldKk w).toNat = w.toNat % 256 := lowBits_toNat w 8

theorem fieldNnn_toNat (w : Word) : (fieldNnn w).toNat = w.toNat % 4096 := lowBits_toNat w 12

/-- Settles O1: each field is a bit range of the word, whose number `extract_toNat` gives. -/
theorem fieldsAreTheNamedBits : Obligations.FieldsAreTheNamedBits := fun w =>
  ⟨fieldP_toNat w, fieldX_toNat w, fieldY_toNat w, fieldN_toNat w, fieldKk_toNat w, fieldNnn_toNat w⟩

end Sys2Proof
end

section
/-! A word that no row of the opcode table matches is a no-op (spec/30_encoding.md R77, R78). -/

namespace Sys2Proof

variable {w u : Word}

/-! ## Where each family of R76 has no handler -/

theorem decodeFamily0_eq_unmapped_iff :
    decodeFamily0 w = .unmapped u ↔ u = w ∧ w.toNat % 16 ∉ [0x0, 0xE] := by
  unfold decodeFamily0
  split <;> simp_all [fieldN_toNat, eq_comm]

theorem decodeFamily8_eq_unmapped_iff :
    decodeFamily8 w = .unmapped u ↔
      u = w ∧ w.toNat % 16 ∉ [0x0, 0x1, 0x2, 0x3, 0x4, 0x5, 0x6, 0x7, 0xE] := by
  unfold decodeFamily8
  split <;> simp_all [fieldN_toNat, eq_comm]

theorem decodeFamilyE_eq_unmapped_iff :
    decodeFamilyE w = .unmapped u ↔ u = w ∧ w.toNat % 16 ∉ [0x1, 0xE] := by
  unfold decodeFamilyE
  split <;> simp_all [fieldN_toNat, eq_comm]

theorem decodeFamilyF_eq_unmapped_iff :
    decodeFamilyF w = .unmapped u ↔
      u = w ∧ w.toNat % 256 ∉ [0x07, 0x0A, 0x15, 0x18, 0x1E, 0x29, 0x33, 0x55, 0x65] := by
  unfold decodeFamilyF
  split <;> simp_all [fieldKk_toNat, eq_comm]

/-! ## The unmapped space -/

theorem primaryKey_lt (w : Word) : w.toNat / 4096 < 16 := by
  have := w.isLt
  omega

/-- The enumeration of R78 is the complement of the keys of R76, family by family. -/
theorem unmappedWord_iff :
    unmappedWord w = true ↔
      (w.toNat / 4096 = 0x0 ∧ w.toNat % 16 ∉ [0x0, 0xE]) ∨
      (w.toNat / 4096 = 0x8 ∧ w.toNat % 16 ∉ [0x0, 0x1, 0x2, 0x3, 0x4, 0x5, 0x6, 0x7, 0xE]) ∨
      (w.toNat / 4096 = 0xE ∧ w.toNat % 16 ∉ [0x1, 0xE]) ∨
      (w.toNat / 4096 = 0xF ∧ w.toNat % 256 ∉ [0x07, 0x0A, 0x15, 0x18, 0x1E, 0x29, 0x33, 0x55, 0x65]) := by
  simp only [unmappedWord, List.contains_cons, List.contains_nil, Bool.or_eq_true, Bool.and_eq_true,
    Bool.not_eq_true', beq_iff_eq, beq_eq_false_iff_ne, ne_eq, Bool.or_eq_false_iff, Bool.or_false,
    ← BitVec.toNat_inj, and_F000_toNat, and_000F_toNat, and_00FF_toNat, BitVec.toNat_ofNat,
    List.mem_cons, List.not_mem_nil, or_false, not_or]
  omega

/-- Exactly the words of R78 decode to `UNMAPPED`, each kept whole: a direct primary key has a handler, and the four
families are `decodeFamily0_eq_unmapped_iff` to `decodeFamilyF_eq_unmapped_iff`. -/
theorem decode_eq_unmapped_iff : decode w = .unmapped u ↔ u = w ∧ unmappedWord w = true := by
  have hkey : w.toNat / 4096 < 16 := primaryKey_lt w
  rw [unmappedWord_iff, decode, fieldP_toNat]
  interval_cases w.toNat / 4096 <;>
    simp [decodeFamily0_eq_unmapped_iff, decodeFamily8_eq_unmapped_iff, decodeFamilyE_eq_unmapped_iff,
      decodeFamilyF_eq_unmapped_iff]

/-- A word that no row of the opcode table matches is one R78 enumerates: its primary key is none of the direct ones, and
in its family the secondary key is none of the rows'. -/
theorem unmappedWord_of_no_row_hits (h : ∀ row ∈ opcodeRows, row.hits w = false) : unmappedWord w = true := by
  have hkey : w.toNat / 4096 < 16 := primaryKey_lt w
  rw [unmappedWord_iff]
  simp only [opcodeRows, opcodeRowsLow, opcodeRows8, opcodeRowsHigh, opcodeRowsF, List.cons_append, List.nil_append,
    List.forall_mem_cons, OpcodeRow.hits, Laws.Canonical.beq_F000, Laws.Canonical.beq_F00F, Laws.Canonical.beq_F0FF,
    decide_eq_false_iff_not] at h
  interval_cases w.toNat / 4096 <;> simp_all

end Sys2Proof

namespace Sys2Proof.Machine

variable {w : Word} {s : State}

/-! ## The Step of an unmapped word -/

theorem exec_unmapped (w : Word) (s : State) : exec (.unmapped w) s = .next s := rfl

theorem State.Runs.fetchWord_of_unmapped (h : s.Runs (.unmapped w)) : s.fetchWord = w := by
  obtain ⟨-, -, hdecode⟩ := h
  exact (decode_eq_unmapped_iff.mp hdecode).1.symm

theorem step_unmapped (h : s.Runs (.unmapped w)) : step s = .next (s.fetched w).decayTimers.nextInput := by
  have hfetch : s.fetchWord = w := State.Runs.fetchWord_of_unmapped h
  have hmeaning : exec (.unmapped w) (s.fetched s.fetchWord) = .next (s.fetched w) := by rw [hfetch, exec_unmapped]
  have hflt : (s.fetched w).flt = none := h.1
  exact step_of_runs_ok h hmeaning hflt

/-- Settles O59: a word no row matches is in the unmapped space, where the decoder has no handler; its Step is the fetch
and the Step's end. -/
theorem unmappedWordIsNoOp : Obligations.UnmappedWordIsNoOp :=
  ⟨fun _ h => decode_eq_unmapped_iff.mpr ⟨rfl, unmappedWord_of_no_row_hits h⟩, exec_unmapped,
    fun _ s h => ⟨_, step_unmapped h, rfl, decay_toNat s.dt, decay_toNat s.st⟩⟩

end Sys2Proof.Machine
end

section
/-! Jump and Jump-indexed (spec/41_control_transfer.md R101, R103). -/

namespace Sys2Proof

variable {w k : Word}

/-! ## The words of a direct primary key (spec/30_encoding.md R73, R74) -/

/-- A match of the row mask 0xF000 fixes the primary key, which is all that the dispatch of a direct key looks at. -/
theorem fieldP_of_and_F000 (h : w &&& 0xF000#16 = k) : (fieldP w).toNat = k.toNat / 4096 := by
  rw [← h, and_F000_toNat, Nat.mul_div_cancel _ (by decide), fieldP_toNat]

theorem decode_eq_jp (h : w &&& 0xF000#16 = 0x1000#16) : decode w = .jp (fieldNnn w) := by
  have hkey : (fieldP w).toNat = 0x1 := fieldP_of_and_F000 h
  simp only [decode, hkey]

theorem decode_eq_jpV0 (h : w &&& 0xF000#16 = 0xB000#16) : decode w = .jpV0 (fieldNnn w) := by
  have hkey : (fieldP w).toNat = 0xB := fieldP_of_and_F000 h
  simp only [decode, hkey]

end Sys2Proof

namespace Sys2Proof.Machine

/-! ## What the two handlers do -/

theorem onlyPcChanges_setPc (s : State) (a : Word) : OnlyPcChanges s (s.setPc a) := rfl

/-- The largest target is 0xFF + 0xFFF = 0x10FE, so the 16-bit sum does not wrap. -/
theorem State.indexedTarget_toNat (s : State) (nnn : Addr12) :
    (s.indexedTarget nnn).toNat = (s.reg 0x0#4).toNat + nnn.toNat := by
  have hbyte : (s.reg 0x0#4).toNat < 2 ^ 8 := (s.reg 0x0#4).isLt
  have haddr : nnn.toNat < 2 ^ 12 := nnn.isLt
  rw [State.indexedTarget, BitVec.toNat_add, zextByte_toNat, zextAddr_toNat, Nat.mod_eq_of_lt (by omega)]

theorem exec_jp (nnn : Addr12) (s : State) : exec (.jp nnn) s = .next (s.setPc (zextAddr nnn)) := rfl

theorem exec_jpV0 (nnn : Addr12) (s : State) : exec (.jpV0 nnn) s = .next (s.setPc (s.indexedTarget nnn)) := rfl

/-- Settles O29: the primary keys 0x1 and 0xB are direct, and each handler is one write of `pc`, whose value
`zextAddr_toNat` and `State.indexedTarget_toNat` give as a number. -/
theorem jumpsSetProgramCounter : Obligations.JumpsSetProgramCounter :=
  ⟨fun _ => decode_eq_jp, fun _ => decode_eq_jpV0,
    fun nnn s => ⟨_, exec_jp nnn s, onlyPcChanges_setPc s _, zextAddr_toNat nnn⟩,
    fun nnn s => ⟨_, exec_jpV0 nnn s, onlyPcChanges_setPc s _, s.indexedTarget_toNat nnn⟩⟩

end Sys2Proof.Machine
end

section
/-! The conditional skips (spec/42_skips.md R110 to R115). -/

namespace Sys2Proof

variable {w k : Word}

/-! ## The words of the six skips (spec/30_encoding.md R73, R74, R76) -/

theorem decode_eq_seImm (h : w &&& 0xF000#16 = 0x3000#16) : decode w = .seImm (fieldX w) (fieldKk w) := by
  have hkey : (fieldP w).toNat = 0x3 := fieldP_of_and_F000 h
  simp only [decode, hkey]

theorem decode_eq_sneImm (h : w &&& 0xF000#16 = 0x4000#16) : decode w = .sneImm (fieldX w) (fieldKk w) := by
  have hkey : (fieldP w).toNat = 0x4 := fieldP_of_and_F000 h
  simp only [decode, hkey]

theorem decode_eq_seReg (h : w &&& 0xF000#16 = 0x5000#16) : decode w = .seReg (fieldX w) (fieldY w) := by
  have hkey : (fieldP w).toNat = 0x5 := fieldP_of_and_F000 h
  simp only [decode, hkey]

theorem decode_eq_sneReg (h : w &&& 0xF000#16 = 0x9000#16) : decode w = .sneReg (fieldX w) (fieldY w) := by
  have hkey : (fieldP w).toNat = 0x9 := fieldP_of_and_F000 h
  simp only [decode, hkey]

/-- A match of the row mask 0xF00F fixes the primary key and the low nibble, which is all that the dispatch of a family
keyed on `IR[3:0]` looks at. -/
theorem keys_of_and_F00F (h : w &&& 0xF00F#16 = k) :
    (fieldP w).toNat = k.toNat / 4096 ∧ (fieldN w).toNat = k.toNat % 16 := by
  have hnum : w.toNat / 4096 * 4096 + w.toNat % 16 = k.toNat := by rw [← h, and_F00F_toNat]
  rw [fieldP_toNat, fieldN_toNat]
  omega

theorem decode_eq_skp (h : w &&& 0xF00F#16 = 0xE00E#16) : decode w = .skp (fieldX w) := by
  obtain ⟨hkey, hlow⟩ : (fieldP w).toNat = 0xE ∧ (fieldN w).toNat = 0xE := keys_of_and_F00F h
  simp only [decode, hkey, decodeFamilyE, hlow]

theorem decode_eq_sknp (h : w &&& 0xF00F#16 = 0xE001#16) : decode w = .sknp (fieldX w) := by
  obtain ⟨hkey, hlow⟩ : (fieldP w).toNat = 0xE ∧ (fieldN w).toNat = 0x1 := keys_of_and_F00F h
  simp only [decode, hkey, decodeFamilyE, hlow]

end Sys2Proof

namespace Sys2Proof.Machine

variable {s : State} {i : Instr} {c : Bool} {P Q : Prop}

/-! ## What the six handlers do -/

theorem onlyPcChanges_skipIf (s : State) (c : Bool) : OnlyPcChanges s (s.skipIf c) := by
  cases c with
  | true => exact onlyPcChanges_setPc s _
  | false => rfl

/-- The one argument behind the six skips: a handler that is `skipIf` of a condition advances `pc` where the condition
is true, and leaves it where the condition is false. -/
theorem exec_skipIf_pc (hexec : exec i s = .next (s.skipIf c)) (hskip : P → c = true) (hstay : Q → c = false) :
    ∃ t, exec i s = .next t ∧ OnlyPcChanges s t ∧ (P → t.pc = s.pc + 2#16) ∧ (Q → t.pc = s.pc) :=
  ⟨_, hexec, onlyPcChanges_skipIf s c, fun hP => by simp [hskip hP], fun hQ => by simp [hstay hQ]⟩

theorem exec_seImm (x : Nibble) (kk : Byte) (s : State) :
    exec (.seImm x kk) s = .next (s.skipIf (s.reg x == kk)) := rfl

theorem exec_sneImm (x : Nibble) (kk : Byte) (s : State) :
    exec (.sneImm x kk) s = .next (s.skipIf (s.reg x != kk)) := rfl

theorem exec_seReg (x y : Nibble) (s : State) :
    exec (.seReg x y) s = .next (s.skipIf (s.reg x == s.reg y)) := rfl

theorem exec_sneReg (x y : Nibble) (s : State) :
    exec (.sneReg x y) s = .next (s.skipIf (s.reg x != s.reg y)) := rfl

/-- The masked key number of R114 is the register's value modulo 16. -/
theorem State.keyDown_eq (s : State) (x : Nibble) :
    s.keyDown x = s.key.getLsbD ((s.reg x).toNat % 16) := by
  rw [State.keyDown, State.keyNumber_eq]

theorem exec_skp (x : Nibble) (s : State) :
    exec (.skp x) s = .next (s.skipIf (s.key.getLsbD ((s.reg x).toNat % 16))) := by
  rw [← State.keyDown_eq]
  rfl

theorem exec_sknp (x : Nibble) (s : State) :
    exec (.sknp x) s = .next (s.skipIf (!s.key.getLsbD ((s.reg x).toNat % 16))) := by
  rw [← State.keyDown_eq]
  rfl

/-- Settles O34: the primary keys 0x3 and 0x4 are direct, and the handlers skip on `V[x] == kk` and on its negation. -/
theorem immediateSkips : Obligations.ImmediateSkips :=
  ⟨fun _ => decode_eq_seImm, fun _ => decode_eq_sneImm,
    fun x kk s => exec_skipIf_pc (exec_seImm x kk s) beq_iff_eq.mpr beq_eq_false_iff_ne.mpr,
    fun x kk s => exec_skipIf_pc (exec_sneImm x kk s) bne_iff_ne.mpr bne_eq_false_iff_eq.mpr⟩

/-- Settles O35: the primary keys 0x5 and 0x9 are direct, so the low nibble plays no part, and the handlers skip on
`V[x] == V[y]` and on its negation. -/
theorem registerSkips : Obligations.RegisterSkips :=
  ⟨fun _ => decode_eq_seReg, fun _ => decode_eq_sneReg,
    fun x y s => exec_skipIf_pc (exec_seReg x y s) beq_iff_eq.mpr beq_eq_false_iff_ne.mpr,
    fun x y s => exec_skipIf_pc (exec_sneReg x y s) bne_iff_ne.mpr bne_eq_false_iff_eq.mpr⟩

/-- Settles O36: family 0xE is keyed on the low nibble, and the handlers skip on the key that the low nibble of `V[x]`
names and on its negation. -/
theorem keySkips : Obligations.KeySkips :=
  ⟨fun _ => decode_eq_skp, fun _ => decode_eq_sknp,
    fun x s => exec_skipIf_pc (exec_skp x s) id id,
    fun x s => exec_skipIf_pc (exec_sknp x s) (Bool.not_eq_true' _).mpr (Bool.not_eq_false' _).mpr⟩

end Sys2Proof.Machine
end

section
/-! Register loads, the bitwise operations and Shift-right (spec/43_load_alu.md R120 to R125, R128). -/

namespace Sys2Proof

variable {w k : Word} {i : Instr}

/-! ## The words of the seven instructions (spec/30_encoding.md R73, R74, R76) -/

theorem decode_eq_ldImm (h : w &&& 0xF000#16 = 0x6000#16) : decode w = .ldImm (fieldX w) (fieldKk w) := by
  have hkey : (fieldP w).toNat = 0x6 := fieldP_of_and_F000 h
  simp only [decode, hkey]

theorem decode_eq_addImm (h : w &&& 0xF000#16 = 0x7000#16) : decode w = .addImm (fieldX w) (fieldKk w) := by
  have hkey : (fieldP w).toNat = 0x7 := fieldP_of_and_F000 h
  simp only [decode, hkey]

/-- The one argument behind the rows of family 0x8: a match of the row mask fixes both keys, so what is left is what the
family gives the row's low nibble. -/
theorem decode_of_family8 (h : w &&& 0xF00F#16 = k) (hkey : k.toNat / 4096 = 0x8)
    (hlow : (fieldN w).toNat = k.toNat % 16 → decodeFamily8 w = i) : decode w = i := by
  obtain ⟨hp, hn⟩ := keys_of_and_F00F h
  simp only [decode, hp, hkey, hlow hn]

theorem decode_eq_ldReg (h : w &&& 0xF00F#16 = 0x8000#16) : decode w = .ldReg (fieldX w) (fieldY w) :=
  decode_of_family8 h rfl fun hlow => by simp only [decodeFamily8, hlow, BitVec.toNat_ofNat]

theorem decode_eq_orReg (h : w &&& 0xF00F#16 = 0x8001#16) : decode w = .orReg (fieldX w) (fieldY w) :=
  decode_of_family8 h rfl fun hlow => by simp only [decodeFamily8, hlow, BitVec.toNat_ofNat]

theorem decode_eq_andReg (h : w &&& 0xF00F#16 = 0x8002#16) : decode w = .andReg (fieldX w) (fieldY w) :=
  decode_of_family8 h rfl fun hlow => by simp only [decodeFamily8, hlow, BitVec.toNat_ofNat]

theorem decode_eq_xorReg (h : w &&& 0xF00F#16 = 0x8003#16) : decode w = .xorReg (fieldX w) (fieldY w) :=
  decode_of_family8 h rfl fun hlow => by simp only [decodeFamily8, hlow, BitVec.toNat_ofNat]

theorem decode_eq_shr (h : w &&& 0xF00F#16 = 0x8006#16) : decode w = .shr (fieldX w) (fieldY w) :=
  decode_of_family8 h rfl fun hlow => by simp only [decodeFamily8, hlow, BitVec.toNat_ofNat]

end Sys2Proof

namespace Sys2Proof.Machine

variable {s t u : State} {i : Instr} {x : Nibble} {b : Byte}

/-! ## Handlers that are one register write -/

theorem onlyRegsChange_setReg (s : State) (x : Nibble) (b : Byte) : OnlyRegsChange s (s.setReg x b) := rfl

/-- The one argument behind Load-imm to Xor: a handler that is one `setReg` gives `V[x]` the byte and leaves everything
else alone, VF included unless it is `V[x]`. -/
theorem exec_setReg_reg (hexec : exec i s = .next (s.setReg x b)) :
    ∃ t, exec i s = .next t ∧ OnlyRegsChange s t ∧ ∀ r, t.reg r = if r = x then b else s.reg r :=
  ⟨_, hexec, onlyRegsChange_setReg s x b, fun r => s.reg_setReg x r b⟩

theorem exec_ldImm (x : Nibble) (kk : Byte) (s : State) : exec (.ldImm x kk) s = .next (s.setReg x kk) := rfl

theorem exec_addImm (x : Nibble) (kk : Byte) (s : State) :
    exec (.addImm x kk) s = .next (s.setReg x (s.reg x + kk)) := rfl

theorem exec_ldReg (x y : Nibble) (s : State) : exec (.ldReg x y) s = .next (s.setReg x (s.reg y)) := rfl

theorem exec_orReg (x y : Nibble) (s : State) :
    exec (.orReg x y) s = .next (s.setReg x (s.reg x ||| s.reg y)) := rfl

theorem exec_andReg (x y : Nibble) (s : State) :
    exec (.andReg x y) s = .next (s.setReg x (s.reg x &&& s.reg y)) := rfl

theorem exec_xorReg (x y : Nibble) (s : State) :
    exec (.xorReg x y) s = .next (s.setReg x (s.reg x ^^^ s.reg y)) := rfl

/-- The sum of R121 as a number: the 8-bit addition drops the carry. -/
theorem exec_addImm_toNat (x : Nibble) (kk : Byte) (s : State) :
    ∃ t, exec (.addImm x kk) s = .next t ∧ OnlyRegsChange s t ∧
      ∀ r, (t.reg r).toNat = if r = x then ((s.reg x).toNat + kk.toNat) % 256 else (s.reg r).toNat := by
  obtain ⟨t, hexec, hframe, hreg⟩ := exec_setReg_reg (exec_addImm x kk s)
  refine ⟨t, hexec, hframe, fun r => ?_⟩
  rw [hreg, apply_ite BitVec.toNat, BitVec.toNat_add]

/-- Settles O37: the primary keys 0x6 and 0x7 are direct, and each handler is one write of `V[x]`. -/
theorem immediateLoadAndAdd : Obligations.ImmediateLoadAndAdd :=
  ⟨fun _ => decode_eq_ldImm, fun _ => decode_eq_addImm,
    fun x kk s => exec_setReg_reg (exec_ldImm x kk s), exec_addImm_toNat⟩

/-- Settles O38: family 0x8 is keyed on the low nibble, and each of the four handlers is one write of `V[x]`. -/
theorem moveAndLogic : Obligations.MoveAndLogic :=
  ⟨fun _ => decode_eq_ldReg, fun _ => decode_eq_orReg, fun _ => decode_eq_andReg, fun _ => decode_eq_xorReg,
    fun x y s => exec_setReg_reg (exec_ldReg x y s), fun x y s => exec_setReg_reg (exec_orReg x y s),
    fun x y s => exec_setReg_reg (exec_andReg x y s), fun x y s => exec_setReg_reg (exec_xorReg x y s)⟩

/-! ## Shift-right: the flag write, then the shift of what `V[x]` holds after it -/

theorem onlyRegsChange_setFlag (s : State) (b : Byte) : OnlyRegsChange s (s.setFlag b) := rfl

theorem OnlyRegsChange.trans (hst : OnlyRegsChange s t) (htu : OnlyRegsChange t u) : OnlyRegsChange s u := by
  rw [OnlyRegsChange] at *
  rw [htu, hst]

theorem exec_shr (x y : Nibble) (s : State) :
    exec (.shr x y) s = .next ((s.setFlag (lowBitFlag (s.reg x))).shiftRightInto x) := rfl

theorem onlyRegsChange_shiftRightInto (s : State) (x : Nibble) : OnlyRegsChange s (s.shiftRightInto x) :=
  onlyRegsChange_setReg s x _

theorem State.reg_shiftRightInto (s : State) (x r : Nibble) :
    (s.shiftRightInto x).reg r = if r = x then s.reg x >>> 1 else s.reg r := s.reg_setReg x r _

theorem lowBitFlag_toNat (a : Byte) : (lowBitFlag a).toNat = a.toNat % 2 := by
  have hbit : a.getLsbD 0 = decide (a.toNat % 2 = 1) := Nat.testBit_zero a.toNat
  rw [lowBitFlag, hbit]
  rcases Nat.mod_two_eq_zero_or_one a.toNat with h | h <;> rw [h] <;> rfl

theorem flagByte_ushiftRight_one (c : Bool) : flagByte c >>> 1 = 0#8 := by
  cases c <;> rfl

/-- Where `x` names VF the shift reads the flag just written, a byte with no bit above bit 0 (R128). -/
theorem State.reg_shiftRight (s : State) (x r : Nibble) :
    ((s.setFlag (lowBitFlag (s.reg x))).shiftRightInto x).reg r =
      if r = x then (if x = 0xF#4 then 0#8 else s.reg x >>> 1)
      else if r = 0xF#4 then lowBitFlag (s.reg x) else s.reg r := by
  simp only [State.reg_shiftRightInto, State.reg_setFlag]
  by_cases hx : x = 0xF#4
  · rw [if_pos hx, if_pos hx, lowBitFlag, flagByte_ushiftRight_one]
  · rw [if_neg hx, if_neg hx]

/-- Settles O41: VF receives the dropped bit before the shift, so with `x = 0xF` the shift drops that bit in turn. -/
theorem shiftRightDropsLowBit : Obligations.ShiftRightDropsLowBit := by
  refine ⟨fun _ => decode_eq_shr, fun x y s => ⟨_, exec_shr x y s,
    (onlyRegsChange_setFlag s _).trans (onlyRegsChange_shiftRightInto _ x), fun hx => ⟨?_, ?_⟩, fun hx => ?_,
    fun r hr hF => ?_⟩⟩
  · rw [State.reg_shiftRight, if_pos rfl, if_neg hx, BitVec.toNat_ushiftRight, Nat.shiftRight_eq_div_pow, Nat.pow_one]
  · rw [State.reg_shiftRight, if_neg (Ne.symm hx), if_pos rfl, lowBitFlag_toNat]
  · rw [State.reg_shiftRight, if_pos hx.symm, if_pos hx]
  · rw [State.reg_shiftRight, if_neg hr, if_neg hF]

end Sys2Proof.Machine
end

section
/-! Load-index, Add-index and Glyph-address (spec/44_index_memory.md R140 to R142). -/

namespace Sys2Proof

variable {w k : Word} {i : Instr}

/-! ## The words of the three instructions (spec/30_encoding.md R73, R76) -/

theorem decode_eq_ldI (h : w &&& 0xF000#16 = 0xA000#16) : decode w = .ldI (fieldNnn w) := by
  have hkey : (fieldP w).toNat = 0xA := fieldP_of_and_F000 h
  simp only [decode, hkey]

/-- A match of the row mask 0xF0FF fixes the primary key and the low byte, which is all that the dispatch of the family
keyed on `IR[7:0]` looks at. -/
theorem keys_of_and_F0FF (h : w &&& 0xF0FF#16 = k) :
    (fieldP w).toNat = k.toNat / 4096 ∧ (fieldKk w).toNat = k.toNat % 256 := by
  have hnum : w.toNat / 4096 * 4096 + w.toNat % 256 = k.toNat := by rw [← h, and_F0FF_toNat]
  rw [fieldP_toNat, fieldKk_toNat]
  omega

/-- The one argument behind the rows of family 0xF: a match of the row mask fixes both keys, so what is left is what the
family gives the row's low byte. -/
theorem decode_of_familyF (h : w &&& 0xF0FF#16 = k) (hkey : k.toNat / 4096 = 0xF)
    (hlow : (fieldKk w).toNat = k.toNat % 256 → decodeFamilyF w = i) : decode w = i := by
  obtain ⟨hp, hkk⟩ := keys_of_and_F0FF h
  simp only [decode, hp, hkey, hlow hkk]

theorem decode_eq_addI (h : w &&& 0xF0FF#16 = 0xF01E#16) : decode w = .addI (fieldX w) :=
  decode_of_familyF h rfl fun hlow => by simp only [decodeFamilyF, hlow, BitVec.toNat_ofNat]

theorem decode_eq_ldF (h : w &&& 0xF0FF#16 = 0xF029#16) : decode w = .ldF (fieldX w) :=
  decode_of_familyF h rfl fun hlow => by simp only [decodeFamilyF, hlow, BitVec.toNat_ofNat]

end Sys2Proof

namespace Sys2Proof.Machine

variable {s : State} {i : Instr} {a : Word} {n : Nat}

/-! ## Handlers that are one write of `I` -/

theorem onlyIChanges_setI (s : State) (a : Word) : OnlyIChanges s (s.setI a) := rfl

/-- The one argument behind the three handlers: one that is `setI` of an address changes only `I`, and `I` has the
address's number. -/
theorem exec_setI_toNat (hexec : exec i s = .next (s.setI a)) (ha : a.toNat = n) :
    ∃ t, exec i s = .next t ∧ OnlyIChanges s t ∧ t.i.toNat = n :=
  ⟨_, hexec, onlyIChanges_setI s a, ha⟩

theorem exec_ldI (nnn : Addr12) (s : State) : exec (.ldI nnn) s = .next (s.setI (zextAddr nnn)) := rfl

theorem exec_addI (x : Nibble) (s : State) :
    exec (.addI x) s = .next (s.setI (s.i + zextByte (s.reg x))) := rfl

theorem exec_ldF (x : Nibble) (s : State) : exec (.ldF x) s = .next (s.setI (glyphAddress (s.reg x))) := rfl

/-- The sum of R141 as a number: the 16-bit addition drops the carry. -/
theorem add_zextByte_toNat (a : Word) (b : Byte) : (a + zextByte b).toNat = (a.toNat + b.toNat) % 65536 := by
  rw [BitVec.toNat_add, zextByte_toNat]

/-- The largest glyph address is 0x050 + 5 * 0xFF = 0x54B, so no bit of the byte is lost. -/
theorem glyphAddress_toNat (b : Byte) : (glyphAddress b).toNat = 0x050 + 5 * b.toNat := by
  have hbyte : b.toNat < 2 ^ 8 := b.isLt
  rw [glyphAddress, BitVec.toNat_ofNat, Nat.mod_eq_of_lt (by simp only [Config.glyphBase, Config.glyphStride]; omega)]

/-- Settles O45: the primary key 0xA is direct, family 0xF is keyed on the low byte, and each handler is one write of `I`,
whose value `zextAddr_toNat`, `add_zextByte_toNat` and `glyphAddress_toNat` give as a number. -/
theorem indexRegisterWrites : Obligations.IndexRegisterWrites :=
  ⟨fun _ => decode_eq_ldI, fun _ => decode_eq_addI, fun _ => decode_eq_ldF,
    fun nnn s => exec_setI_toNat (exec_ldI nnn s) (zextAddr_toNat nnn),
    fun x s => exec_setI_toNat (exec_addI x s) (add_zextByte_toNat s.i (s.reg x)),
    fun x s => exec_setI_toNat (exec_ldF x s) (glyphAddress_toNat (s.reg x))⟩

end Sys2Proof.Machine
end

section
/-! Clear (spec/45_display.md R150). -/

namespace Sys2Proof

variable {w : Word}

/-- Both 0x00E0 and 0x0000 match: family 0x0 is keyed on the low nibble only (spec/30_encoding.md R74). -/
theorem decode_eq_cls (h : w &&& 0xF00F#16 = 0x0000#16) : decode w = .cls := by
  obtain ⟨hkey, hlow⟩ : (fieldP w).toNat = 0x0 ∧ (fieldN w).toNat = 0x0 := keys_of_and_F00F h
  simp only [decode, hkey, decodeFamily0, hlow]

end Sys2Proof

namespace Sys2Proof.Machine

theorem onlyDisplayChanges_setDisp (s : State) (d : Display) : OnlyDisplayChanges s (s.setDisp d) := rfl

theorem exec_cls (s : State) : exec .cls s = .next (s.setDisp clearDisplay) := rfl

theorem State.pixel_setDisp (s : State) (d : Display) (idx : Nat) : (s.setDisp d).pixel idx = pixelOf d idx := rfl

theorem State.pixel_setDisp_clearDisplay (s : State) (idx : Nat) : (s.setDisp clearDisplay).pixel idx = false := by
  rw [State.pixel_setDisp, pixelOf_clearDisplay]

/-- Settles O52: family 0x0 is keyed on the low nibble, and the handler is one write of the display, whose pixels
`pixelOf_clearDisplay` gives. -/
theorem clearTurnsPixelsOff : Obligations.ClearTurnsPixelsOff :=
  ⟨fun _ => decode_eq_cls, fun s => ⟨_, exec_cls s, onlyDisplayChanges_setDisp s _,
    fun idx _ => s.pixel_setDisp_clearDisplay idx⟩⟩

end Sys2Proof.Machine
end

section
/-! Read-delay and Wait-key (spec/46_timers_keys.md R160, R161). -/

namespace Sys2Proof

variable {w key : Word}

/-! ## The words of the two instructions (spec/30_encoding.md R76) -/

theorem decode_eq_ldVxDt (h : w &&& 0xF0FF#16 = 0xF007#16) : decode w = .ldVxDt (fieldX w) :=
  decode_of_familyF h rfl fun hlow => by simp only [decodeFamilyF, hlow, BitVec.toNat_ofNat]

theorem decode_eq_ldVxK (h : w &&& 0xF0FF#16 = 0xF00A#16) : decode w = .ldVxK (fieldX w) :=
  decode_of_familyF h rfl fun hlow => by simp only [decodeFamilyF, hlow, BitVec.toNat_ofNat]

/-! ## The keys as a word -/

/-- The key word has one bit per key, so with every key up nothing of it is left. -/
theorem key_eq_zero_of_all_up (h : ∀ k, k < 16 → key.getLsbD k = false) : key = 0#16 :=
  BitVec.eq_of_getLsbD_eq fun k hk => by rw [h k hk, BitVec.getLsbD_zero]

/-- A key number fits a byte, so writing it to a register loses nothing. -/
theorem keyByte_toNat {k : Nat} (hk : k < 16) : (BitVec.ofNat 8 k).toNat = k := by
  rw [BitVec.toNat_ofNat, Nat.mod_eq_of_lt (by omega)]

end Sys2Proof

namespace Sys2Proof.Machine

variable {s : State} {x : Nibble} {k : Nat}

/-! ## Read-delay -/

theorem exec_ldVxDt (x : Nibble) (s : State) : exec (.ldVxDt x) s = .next (s.setReg x s.dt) := rfl

/-- The whole Step: the timer is read before the Step's end, which is where it decays. -/
theorem step_ldVxDt (h : s.Runs (.ldVxDt x)) :
    step s = .next ((s.fetched s.fetchWord).setReg x s.dt).decayTimers.nextInput :=
  step_of_runs_ok h (exec_ldVxDt x _) h.1

/-- Settles O56: the handler is one write of `V[x]`, and the decay after it leaves the registers alone. -/
theorem readDelayGivesTimer : Obligations.ReadDelayGivesTimer := by
  refine ⟨fun _ => decode_eq_ldVxDt, fun x s => exec_setReg_reg (exec_ldVxDt x s),
    fun x s h => ⟨_, step_ldVxDt h, ?_, decay_toNat s.dt⟩⟩
  rw [State.reg_nextInput, State.reg_decayTimers, State.reg_setReg, if_pos rfl]

/-! ## Wait-key -/

theorem State.key_fetched (s : State) (w : Word) : (s.fetched w).key = s.key := rfl

/-- With a key down the handler is one write of `V[x]`, of the lowest such key's number. -/
theorem exec_ldVxK_reg_toNat (x : Nibble) (hk : k < 16) (hdown : s.key.getLsbD k = true)
    (hlow : ∀ j, j < k → s.key.getLsbD j = false) :
    ∃ t, exec (.ldVxK x) s = .next t ∧ OnlyRegsChange s t ∧
      ∀ r, (t.reg r).toNat = if r = x then k else (s.reg r).toNat := by
  have hexec : exec (.ldVxK x) s = .next (s.setReg x (BitVec.ofNat 8 k)) :=
    execLdVxK_down x s k (firstKey_some hk hdown hlow)
  obtain ⟨t, ht, hframe, hreg⟩ := exec_setReg_reg hexec
  refine ⟨t, ht, hframe, fun r => ?_⟩
  rw [hreg, apply_ite BitVec.toNat, keyByte_toNat hk]

/-- The whole Step with every key up: the rewind undoes the advance of the fetch, and the timers decay all the same. -/
theorem step_ldVxK_up (h : s.Runs (.ldVxK x)) (hup : s.key = 0#16) :
    step s = .next ((s.fetched s.fetchWord).setPc s.pc).decayTimers.nextInput := by
  have hexec : exec (.ldVxK x) (s.fetched s.fetchWord) = .next ((s.fetched s.fetchWord).setPc s.pc) := by
    rw [execLdVxK_up x _ ((s.key_fetched _).trans hup), State.fetched_pc, BitVec.add_sub_cancel]
  exact step_of_runs_ok h hexec h.1

/-- Settles O57: the scan finds the lowest key that is down, or none where the key word is 0, and then the Step is the
fetch with `pc` put back and the Step's end. -/
theorem waitKeyTakesLowestKey : Obligations.WaitKeyTakesLowestKey :=
  ⟨fun _ => decode_eq_ldVxK, fun x _ _ => exec_ldVxK_reg_toNat x,
    fun x s h => ⟨_, execLdVxK_up x s (key_eq_zero_of_all_up h), onlyPcChanges_setPc s _, rfl⟩,
    fun _ s h hup => ⟨_, step_ldVxK_up h hup, rfl, rfl, decay_toNat s.dt, decay_toNat s.st⟩⟩

end Sys2Proof.Machine
end

section
/-! The decoder, its encoder and the opcode table (spec/30_encoding.md R73 to R78, R81). -/

namespace Sys2Proof

variable {w u : Word}

/-! ## The words of the other rows (R73, R74, R76) -/

theorem decode_eq_ret (h : w &&& 0xF00F#16 = 0x000E#16) : decode w = .ret := by
  obtain ⟨hkey, hlow⟩ : (fieldP w).toNat = 0x0 ∧ (fieldN w).toNat = 0xE := keys_of_and_F00F h
  simp only [decode, hkey, decodeFamily0, hlow]

theorem decode_eq_call (h : w &&& 0xF000#16 = 0x2000#16) : decode w = .call (fieldNnn w) := by
  have hkey : (fieldP w).toNat = 0x2 := fieldP_of_and_F000 h
  simp only [decode, hkey]

theorem decode_eq_addReg (h : w &&& 0xF00F#16 = 0x8004#16) : decode w = .addReg (fieldX w) (fieldY w) :=
  decode_of_family8 h rfl fun hlow => by simp only [decodeFamily8, hlow, BitVec.toNat_ofNat]

theorem decode_eq_subReg (h : w &&& 0xF00F#16 = 0x8005#16) : decode w = .subReg (fieldX w) (fieldY w) :=
  decode_of_family8 h rfl fun hlow => by simp only [decodeFamily8, hlow, BitVec.toNat_ofNat]

theorem decode_eq_subnReg (h : w &&& 0xF00F#16 = 0x8007#16) : decode w = .subnReg (fieldX w) (fieldY w) :=
  decode_of_family8 h rfl fun hlow => by simp only [decodeFamily8, hlow, BitVec.toNat_ofNat]

theorem decode_eq_shl (h : w &&& 0xF00F#16 = 0x800E#16) : decode w = .shl (fieldX w) (fieldY w) :=
  decode_of_family8 h rfl fun hlow => by simp only [decodeFamily8, hlow, BitVec.toNat_ofNat]

theorem decode_eq_rnd (h : w &&& 0xF000#16 = 0xC000#16) : decode w = .rnd (fieldX w) (fieldKk w) := by
  have hkey : (fieldP w).toNat = 0xC := fieldP_of_and_F000 h
  simp only [decode, hkey]

theorem decode_eq_drw (h : w &&& 0xF000#16 = 0xD000#16) : decode w = .drw (fieldX w) (fieldY w) (fieldN w) := by
  have hkey : (fieldP w).toNat = 0xD := fieldP_of_and_F000 h
  simp only [decode, hkey]

theorem decode_eq_ldDtVx (h : w &&& 0xF0FF#16 = 0xF015#16) : decode w = .ldDtVx (fieldX w) :=
  decode_of_familyF h rfl fun hlow => by simp only [decodeFamilyF, hlow, BitVec.toNat_ofNat]

theorem decode_eq_ldStVx (h : w &&& 0xF0FF#16 = 0xF018#16) : decode w = .ldStVx (fieldX w) :=
  decode_of_familyF h rfl fun hlow => by simp only [decodeFamilyF, hlow, BitVec.toNat_ofNat]

theorem decode_eq_ldB (h : w &&& 0xF0FF#16 = 0xF033#16) : decode w = .ldB (fieldX w) :=
  decode_of_familyF h rfl fun hlow => by simp only [decodeFamilyF, hlow, BitVec.toNat_ofNat]

theorem decode_eq_storeRegs (h : w &&& 0xF0FF#16 = 0xF055#16) : decode w = .storeRegs (fieldX w) :=
  decode_of_familyF h rfl fun hlow => by simp only [decodeFamilyF, hlow, BitVec.toNat_ofNat]

theorem decode_eq_loadRegs (h : w &&& 0xF0FF#16 = 0xF065#16) : decode w = .loadRegs (fieldX w) :=
  decode_of_familyF h rfl fun hlow => by simp only [decodeFamilyF, hlow, BitVec.toNat_ofNat]

/-! ## Decoding what the encoder wrote -/

/-- Every operand comes back because each format puts its fields where the decoder reads them; an unmapped word comes back
because the decoder keeps it whole. -/
theorem decode_encode {i : Instr} (hi : i.WellFormed) : decode (encode i) = i := by
  cases i with
  | unmapped w => exact decode_eq_unmapped_iff.mpr ⟨rfl, hi⟩
  | cls | ret => rfl
  | jp | call | ldI | jpV0 => simp [encode, decode]
  | seImm | sneImm | ldImm | addImm | rnd => simp [encode, decode]
  | seReg | sneReg | drw => simp [encode, decode]
  | ldReg | orReg | andReg | xorReg | addReg | subReg | shr | subnReg | shl => simp [encode, decode, decodeFamily8]
  | skp | sknp => simp [encode, decode, decodeFamilyE, fieldN_assembleKk]
  | ldVxDt | ldVxK | ldDtVx | ldStVx | addI | ldF | ldB | storeRegs | loadRegs =>
    simp [encode, decode, decodeFamilyF]

/-- Settles O3, by the format of the instruction's word. -/
theorem decodeEncodeRoundTrip : Obligations.DecodeEncodeRoundTrip := fun _ => decode_encode

/-- Settles O2: ten closed words, each decoded by evaluation. -/
theorem specWordsDecode : Obligations.SpecWordsDecode := by
  unfold Obligations.SpecWordsDecode
  decide

/-! ## The unmapped space (R77, R78) -/

theorem decode_wellFormed (w : Word) : (decode w).WellFormed := by
  cases hd : decode w with
  | unmapped u =>
    obtain ⟨rfl, hu⟩ := decode_eq_unmapped_iff.mp hd
    exact hu
  | _ => rfl

theorem unmappedWord_iff_decode : unmappedWord w = true ↔ decode w = .unmapped w := by
  rw [decode_eq_unmapped_iff, and_iff_right rfl]

/-- Settles O4: the enumeration is where the decoder has no handler, and there it keeps the word. -/
theorem unmappedSpaceIsExact : Obligations.UnmappedSpaceIsExact := fun w =>
  ⟨decode_wellFormed w, unmappedWord_iff_decode, fun _ hu => (decode_eq_unmapped_iff.mp hu).1⟩

/-! ## The opcode table (R74, R75) -/

theorem hits_iff {r : OpcodeRow} : r.hits w = true ↔ w &&& r.mask = r.pattern := beq_iff_eq

/-- A word that matches a row is decoded as the row builds it: one `decode_eq_…` per row. -/
theorem decode_of_hits {r : OpcodeRow} (hr : r ∈ opcodeRows) (hw : r.hits w = true) : decode w = r.build w := by
  revert hw
  rw [hits_iff]
  revert r
  simp only [opcodeRows, opcodeRowsLow, opcodeRows8, opcodeRowsHigh, opcodeRowsF, List.cons_append, List.nil_append,
    List.forall_mem_cons, List.not_mem_nil, false_imp_iff, implies_true, and_true]
  exact ⟨decode_eq_cls, decode_eq_ret, decode_eq_jp, decode_eq_call, decode_eq_seImm, decode_eq_sneImm, decode_eq_seReg,
    decode_eq_ldImm, decode_eq_addImm, decode_eq_ldReg, decode_eq_orReg, decode_eq_andReg, decode_eq_xorReg,
    decode_eq_addReg, decode_eq_subReg, decode_eq_shr, decode_eq_subnReg, decode_eq_shl, decode_eq_sneReg, decode_eq_ldI,
    decode_eq_jpV0, decode_eq_rnd, decode_eq_drw, decode_eq_skp, decode_eq_sknp, decode_eq_ldVxDt, decode_eq_ldVxK,
    decode_eq_ldDtVx, decode_eq_ldStVx, decode_eq_addI, decode_eq_ldF, decode_eq_ldB, decode_eq_storeRegs,
    decode_eq_loadRegs⟩

/-- Settles O5: a first matching row is a matching row, and where there is none the word is in the unmapped space. -/
theorem dispatchAgreesWithOpcodeTable : Obligations.DispatchAgreesWithOpcodeTable := fun w => by
  unfold decodeByTable
  cases hfind : opcodeRows.find? (fun r => r.hits w) with
  | some r =>
    have hhits : r.hits w = true := List.find?_some (p := fun r : OpcodeRow => r.hits w) hfind
    exact decode_of_hits (List.mem_of_find?_eq_some hfind) hhits
  | none =>
    have hnone : ∀ row ∈ opcodeRows, row.hits w = false := by simpa using hfind
    exact unmappedWord_iff_decode.mp (unmappedWord_of_no_row_hits hnone)

/-- Two rows no word can match both: they ask different values of the bits both look at. -/
def OpcodeRow.Excludes (r q : OpcodeRow) : Prop := r.pattern &&& q.mask ≠ q.pattern &&& r.mask

theorem OpcodeRow.Excludes.not_hits {r q : OpcodeRow} (h : r.Excludes q) (hr : r.hits w = true) : q.hits w = false := by
  rw [← Bool.not_eq_true, hits_iff]
  rw [hits_iff] at hr
  intro hq
  apply h
  rw [← hr, ← hq, BitVec.and_assoc, BitVec.and_assoc, BitVec.and_comm r.mask]

theorem opcodeRows_exclude : opcodeRows.Pairwise OpcodeRow.Excludes := by
  unfold OpcodeRow.Excludes
  decide

/-- Of pairwise exclusive rows a word matches at most one. -/
theorem countP_hits_le_one {rows : List OpcodeRow} (h : rows.Pairwise OpcodeRow.Excludes) (w : Word) :
    rows.countP (fun r => r.hits w) ≤ 1 := by
  induction rows with
  | nil => exact Nat.zero_le 1
  | cons r rows ih =>
    obtain ⟨hr, hrows⟩ := List.pairwise_cons.mp h
    cases hw : r.hits w with
    | true =>
      have hrest : rows.countP (fun q => q.hits w) = 0 :=
        List.countP_eq_zero.mpr fun q hq => by simp [(hr q hq).not_hits hw]
      simp [hw, hrest]
    | false => simpa [hw] using ih hrows

theorem countP_hits_eq_zero_iff : opcodeRows.countP (fun r => r.hits w) = 0 ↔ decode w = .unmapped w := by
  rw [List.countP_eq_zero, ← unmappedWord_iff_decode]
  simp only [Bool.not_eq_true]
  exact ⟨unmappedWord_of_no_row_hits, Laws.Canonical.unmapped w⟩

/-- Settles O6: the rows exclude each other pairwise, and the words none of them matches are the unmapped ones. -/
theorem atMostOneRowMatches : Obligations.AtMostOneRowMatches := fun w => by
  have hle : opcodeRows.countP (fun r => r.hits w) ≤ 1 := countP_hits_le_one opcodeRows_exclude w
  refine ⟨hle, ?_⟩
  rw [ne_eq, ← countP_hits_eq_zero_iff]
  omega

/-! ## Alias words (R74) -/

/-- Words that agree under a mask agree under every mask inside it. -/
theorem and_eq_of_and_eq {m k : Word} (h : w &&& m = u &&& m) (hk : m &&& k = k) : w &&& k = u &&& k := by
  rw [← hk, ← BitVec.and_assoc, h, BitVec.and_assoc]

/-- A field whose bits all lie under a mask is read off the masked word. -/
theorem extract_eq_of_and_eq {m : Word} {start len : Nat} (h : w &&& m = u &&& m)
    (hm : m.extractLsb' start len = BitVec.allOnes len) : w.extractLsb' start len = u.extractLsb' start len := by
  have hw := congrArg (BitVec.extractLsb' start len) h
  rwa [BitVec.extractLsb'_and, BitVec.extractLsb'_and, hm, BitVec.and_allOnes, BitVec.and_allOnes] at hw

/-- Words that differ in the low nibble only have the same primary key, `x` and `y`. -/
theorem keys_eq_of_and_FFF0 (h : w &&& 0xFFF0#16 = u &&& 0xFFF0#16) :
    w &&& 0xF000#16 = u &&& 0xF000#16 ∧ fieldX w = fieldX u ∧ fieldY w = fieldY u :=
  ⟨and_eq_of_and_eq h (by decide), extract_eq_of_and_eq h (by decide), extract_eq_of_and_eq h (by decide)⟩

theorem decode_seReg_alias (hp : w &&& 0xF000#16 = 0x5000#16) (h : w &&& 0xFFF0#16 = u &&& 0xFFF0#16) :
    decode w = decode u := by
  obtain ⟨hkey, hx, hy⟩ := keys_eq_of_and_FFF0 h
  rw [decode_eq_seReg hp, decode_eq_seReg (hkey.symm.trans hp), hx, hy]

theorem decode_sneReg_alias (hp : w &&& 0xF000#16 = 0x9000#16) (h : w &&& 0xFFF0#16 = u &&& 0xFFF0#16) :
    decode w = decode u := by
  obtain ⟨hkey, hx, hy⟩ := keys_eq_of_and_FFF0 h
  rw [decode_eq_sneReg hp, decode_eq_sneReg (hkey.symm.trans hp), hx, hy]

/-- A word of family 0xE with a handler matches one of the two key skips. -/
theorem keySkip_hits (hp : w &&& 0xF000#16 = 0xE000#16) (hd : decode w ≠ .unmapped w) :
    w &&& 0xF00F#16 = 0xE001#16 ∨ w &&& 0xF00F#16 = 0xE00E#16 := by
  have hkey : (fieldP w).toNat = 0xE := fieldP_of_and_F000 hp
  have hlow : w.toNat % 16 = 0x1 ∨ w.toNat % 16 = 0xE := by
    simp only [decode, hkey] at hd
    by_contra hno
    exact hd (decodeFamilyE_eq_unmapped_iff.mpr ⟨rfl, by simpa using hno⟩)
  rw [fieldP_toNat] at hkey
  exact hlow.imp (fun hn => Laws.Canonical.and_F00F_eq (by rw [hkey, hn]; rfl))
    (fun hn => Laws.Canonical.and_F00F_eq (by rw [hkey, hn]; rfl))

theorem decode_keySkip_alias (hp : w &&& 0xF000#16 = 0xE000#16) (hd : decode w ≠ .unmapped w)
    (h : w &&& 0xFF0F#16 = u &&& 0xFF0F#16) : decode w = decode u := by
  have hx : fieldX w = fieldX u := extract_eq_of_and_eq h (by decide)
  have hu : w &&& 0xF00F#16 = u &&& 0xF00F#16 := and_eq_of_and_eq h (by decide)
  rcases keySkip_hits hp hd with hw | hw
  · rw [decode_eq_sknp hw, decode_eq_sknp (hu.symm.trans hw), hx]
  · rw [decode_eq_skp hw, decode_eq_skp (hu.symm.trans hw), hx]

/-- Settles O7: the two words agree in every bit the dispatch and the selected row's fields read, and the two shifts' meanings
have no `y`. -/
theorem aliasWordsDecodeAlike : Obligations.AliasWordsDecodeAlike :=
  ⟨fun _ => decode_eq_cls, fun _ => decode_eq_ret, fun _ _ => decode_seReg_alias, fun _ _ => decode_sneReg_alias,
    fun _ _ => decode_keySkip_alias, fun _ _ _ _ => rfl, fun _ _ _ _ => rfl⟩

end Sys2Proof
end

section
/-! The Step: its fetch and its end, what each instruction may change, and what stops it (spec/40_step_cycle.md,
spec/60_exceptions.md). -/

namespace Sys2Proof

/-! ## Words of two bytes (spec/20_memory.md R51) -/

theorem wordOfBytes_toNat (hi lo : Byte) : (wordOfBytes hi lo).toNat = 256 * hi.toNat + lo.toNat := by
  rw [wordOfBytes, BitVec.toNat_append, ← Nat.shiftLeft_add_eq_or_of_lt lo.isLt, Nat.shiftLeft_eq]
  omega

end Sys2Proof

namespace Sys2Proof.Machine

variable {s t u : State} {i : Instr} {f : FltRecord}

theorem State.fetchWord_toNat (s : State) :
    s.fetchWord.toNat = 256 * (s.readByte s.pc.toNat).toNat + (s.readByte (s.pc.toNat + 1)).toNat :=
  wordOfBytes_toNat _ _

/-- Settles O8: a word of two bytes has the first one in its high half. -/
theorem fetchIsBigEndian : Obligations.FetchIsBigEndian := State.fetchWord_toNat

/-! ## The cases of `step` (R90) -/

theorem step_of_halted (h : s.flt ≠ none) : step s = .next s := by
  obtain ⟨f, hf⟩ := Option.ne_none_iff_exists'.mp h
  simp only [step, hf]

theorem step_of_fetchFault (h : s.flt = none) (hpc : 0xFFF ≤ s.pc.toNat) : step s = .next s.takeFetchFault := by
  have hfetch : s.canFetch = false := decide_eq_false (by simp only [Config.memSize]; omega)
  simp only [step, h, hfetch, Bool.false_eq_true, if_false]

theorem step_of_exec (hr : s.Runs i) (he : exec i (s.fetched s.fetchWord) = .next u) : step s = .next (s.endStep u) := by
  rw [step_of_runs hr, he]
  rfl

theorem State.Runs.flt_eq_none (hr : s.Runs i) : s.flt = none := hr.1

theorem State.Runs.pc_le (hr : s.Runs i) : s.pc.toNat + 1 ≤ 0xFFF := hr.2.1

theorem State.runs_decode (h : s.flt = none) (hpc : s.pc.toNat + 1 ≤ 0xFFF) : s.Runs (decode s.fetchWord) := ⟨h, hpc, rfl⟩

/-- Settles O9: the two bytes at `pc` are the fetched word, and the two outcomes are the two cases of the Step's end. -/
theorem stepRunsDecodedInstruction : Obligations.StepRunsDecodedInstruction := by
  intro s i rest hs hpc hbytes
  have hi : decode s.fetchWord = i := congrArg Prod.fst (Except.ok.inj hbytes)
  have hr : s.Runs i := ⟨hs, hpc, hi⟩
  obtain ⟨u, he⟩ := exec_next i (s.fetched s.fetchWord)
  refine ⟨hi ▸ decode_wellFormed _, u, he, fun hu => ?_, fun f hu => ?_⟩
  · rw [step_of_exec hr he, s.endStep_ok u hu]
    rfl
  · rw [step_of_exec hr he, s.endStep_fault u f hu]

/-- Settles O10: the latch is looked at before anything else. -/
theorem haltedStepChangesNothing : Obligations.HaltedStepChangesNothing := fun _ => step_of_halted

/-- Settles O11: the second byte would lie above 0xFFF, so nothing is fetched. -/
theorem fetchAboveMemoryFaults : Obligations.FetchAboveMemoryFaults := fun _ => step_of_fetchFault

/-- Settles O12: halted, out of the space, or running an instruction, whose meaning always answers. -/
theorem everyStepAnswersNext : Obligations.EveryStepAnswersNext := by
  intro s
  by_cases hs : s.flt = none
  · by_cases hpc : 0xFFF ≤ s.pc.toNat
    · exact ⟨_, step_of_fetchFault hs hpc⟩
    · obtain ⟨u, he⟩ := exec_next (decode s.fetchWord) (s.fetched s.fetchWord)
      exact ⟨_, step_of_exec (State.runs_decode hs (by omega)) he⟩
  · exact ⟨_, step_of_halted hs⟩

/-- A Step that runs `i` and ends without a fault is the meaning of `i`, which took none, and the Step's end. -/
theorem step_completes (hr : s.Runs i) (h : step s = .next t) (hf : t.flt = none) :
    ∃ u, exec i (s.fetched s.fetchWord) = .next u ∧ u.flt = none ∧ t = u.decayTimers.nextInput := by
  obtain ⟨u, he⟩ := exec_next i (s.fetched s.fetchWord)
  rw [step_of_exec hr he] at h
  cases h
  cases hu : u.flt with
  | none => exact ⟨u, he, hu, s.endStep_ok u hu⟩
  | some f => rw [s.endStep_fault u f hu] at hf; cases hf

/-! ## What an instruction may change where it takes no fault -/

/-- `s` with the fields that the rule of `i` lets it change as they are in `u`. -/
def framed (i : Instr) (s u : State) : State :=
  match i with
  | .cls => { s with disp := u.disp }
  | .drw _ _ _ => { s with disp := u.disp, v := u.v }
  | .ret | .call _ => { s with stk := u.stk, sc := u.sc, pc := u.pc }
  | .jp _ | .jpV0 _ | .seImm _ _ | .sneImm _ _ | .seReg _ _ | .sneReg _ _ | .skp _ | .sknp _ => { s with pc := u.pc }
  | .ldImm _ _ | .addImm _ _ | .ldReg _ _ | .orReg _ _ | .andReg _ _ | .xorReg _ _ | .addReg _ _ | .subReg _ _
  | .shr _ _ | .subnReg _ _ | .shl _ _ | .rnd _ _ | .ldVxDt _ | .loadRegs _ => { s with v := u.v }
  | .ldVxK _ => { s with v := u.v, pc := u.pc }
  | .ldDtVx _ => { s with dt := u.dt }
  | .ldStVx _ => { s with st := u.st }
  | .ldI _ | .addI _ | .ldF _ => { s with i := u.i }
  | .ldB _ | .storeRegs _ => { s with mem := u.mem }
  | .unmapped _ => s

/-- Without a fault the first alternative of `exec_result` is out. -/
theorem not_takeFault (hf : u.flt = none) : ¬ ∃ r, u = s.takeFault r := by
  rintro ⟨r, rfl⟩
  cases hf

/-- The fields outside the frame keep their value. -/
theorem exec_framed (he : exec i s = .next u) (hf : u.flt = none) : u = framed i s u := by
  have heffect := (exec_result he).resolve_left (not_takeFault hf)
  cases i with
  | call nnn => obtain ⟨-, rfl⟩ := heffect; rfl
  | ret => obtain ⟨k, -, rfl⟩ := heffect; rfl
  | ldB x | storeRegs x => obtain ⟨-, rfl⟩ := heffect; rfl
  | loadRegs x => obtain ⟨-, hregs, -⟩ := heffect; exact hregs
  | drw x y n => obtain ⟨d, b, rfl⟩ := heffect; rfl
  | ldVxK x => obtain ⟨-, rfl⟩ | ⟨-, b, rfl⟩ := heffect <;> rfl
  | seImm | sneImm | seReg | sneReg | skp | sknp => cases he; exact onlyPcChanges_skipIf s _
  | _ => cases he; rfl

section

variable (he : exec i s = .next u) (hf : u.flt = none)
include he hf

theorem exec_glyphs : u.glyphs = s.glyphs := by
  have hframe := exec_framed he hf
  cases i <;> exact (congrArg State.glyphs hframe :)

theorem exec_epoch : u.epoch = s.epoch := by
  have hframe := exec_framed he hf
  cases i <;> exact (congrArg State.epoch hframe :)

theorem exec_dt (hi : ∀ x, i ≠ .ldDtVx x) : u.dt = s.dt := by
  have hframe := exec_framed he hf
  cases i with
  | ldDtVx x => exact absurd rfl (hi x)
  | _ => exact (congrArg State.dt hframe :)

theorem exec_st (hi : ∀ x, i ≠ .ldStVx x) : u.st = s.st := by
  have hframe := exec_framed he hf
  cases i with
  | ldStVx x => exact absurd rfl (hi x)
  | _ => exact (congrArg State.st hframe :)

/-- Return moves the count and keeps every slot. -/
theorem exec_stk (hi : ∀ nnn, i ≠ .call nnn) : u.stk = s.stk := by
  have hframe := exec_framed he hf
  cases i with
  | call nnn => exact absurd rfl (hi nnn)
  | ret => obtain ⟨k, -, rfl⟩ := (exec_result he).resolve_left (not_takeFault hf); rfl
  | _ => exact (congrArg State.stk hframe :)

theorem exec_sc (hcall : ∀ nnn, i ≠ .call nnn) (hret : i ≠ .ret) : u.sc = s.sc := by
  have hframe := exec_framed he hf
  cases i with
  | call nnn => exact absurd rfl (hcall nnn)
  | ret => exact absurd rfl hret
  | _ => exact (congrArg State.sc hframe :)

theorem exec_disp (hcls : i ≠ .cls) (hdrw : ∀ x y n, i ≠ .drw x y n) : u.disp = s.disp := by
  have hframe := exec_framed he hf
  cases i with
  | cls => exact absurd rfl hcls
  | drw x y n => exact absurd rfl (hdrw x y n)
  | _ => exact (congrArg State.disp hframe :)

theorem exec_mem (hbcd : ∀ x, i ≠ .ldB x) (hregs : ∀ x, i ≠ .storeRegs x) : u.mem = s.mem := by
  have hframe := exec_framed he hf
  cases i with
  | ldB x => exact absurd rfl (hbcd x)
  | storeRegs x => exact absurd rfl (hregs x)
  | _ => exact (congrArg State.mem hframe :)

theorem exec_i (hld : ∀ nnn, i ≠ .ldI nnn) (hadd : ∀ x, i ≠ .addI x) (hglyph : ∀ x, i ≠ .ldF x) : u.i = s.i := by
  have hframe := exec_framed he hf
  cases i with
  | ldI nnn => exact absurd rfl (hld nnn)
  | addI x => exact absurd rfl (hadd x)
  | ldF x => exact absurd rfl (hglyph x)
  | _ => exact (congrArg State.i hframe :)

end

theorem exec_call_sc {nnn : Addr12} (he : exec (.call nnn) s = .next u) (hf : u.flt = none) :
    u.sc.val = s.sc.val + 1 := by
  obtain ⟨h, rfl⟩ := (exec_result he).resolve_left (not_takeFault hf)
  rfl

theorem exec_ret_sc (he : exec .ret s = .next u) (hf : u.flt = none) : u.sc.val + 1 = s.sc.val := by
  obtain ⟨k, h, rfl⟩ := (exec_result he).resolve_left (not_takeFault hf)
  exact h.symm

/-! ## Fields only some Steps write -/

/-- Settles O15: the meaning leaves the old or the written value, and the Step's end takes one off. -/
theorem timersDecayEachStep : Obligations.TimersDecayEachStep := by
  intro s t i hr hstep hf
  obtain ⟨u, he, hu, rfl⟩ := step_completes hr hstep hf
  refine ⟨fun hi => ?_, ?_, fun hi => ?_, ?_⟩
  · rw [State.nextInput_dt, State.decayTimers_dt, decay_toNat, exec_dt he hu hi, State.fetched_dt]
  · rintro x rfl
    cases he
    exact decay_toNat (s.reg x)
  · rw [State.nextInput_st, State.decayTimers_st, decay_toNat, exec_st he hu hi, State.fetched_st]
  · rintro x rfl
    cases he
    exact decay_toNat (s.reg x)

/-- An instruction that no Step from `s` runs is not the one this Step runs. -/
theorem State.Runs.ne_of_not_runs {j : Instr} (hr : s.Runs i) (hj : ¬ s.Runs j) : i ≠ j := by
  rintro rfl
  exact hj hr

/-- Settles O17: a Step that changes more than the latch changes the stack as its instruction does. -/
theorem stackTouchedOnlyByCallAndReturn : Obligations.StackTouchedOnlyByCallAndReturn := by
  intro s t hstep
  rcases step_cases hstep with ⟨f, rfl⟩ | ⟨i, u, hr, he, hu, rfl⟩
  · exact ⟨fun _ => rfl, fun _ _ => rfl, fun h => absurd rfl h⟩
  refine ⟨fun hcall => ?_, fun hcall hret => ?_, fun hne => ?_⟩
  · exact (exec_stk he hu fun nnn => hr.ne_of_not_runs (hcall nnn) :)
  · exact (exec_sc he hu (fun nnn => hr.ne_of_not_runs (hcall nnn)) (hr.ne_of_not_runs hret) :)
  · by_cases hcall : ∃ nnn, i = .call nnn
    · obtain ⟨nnn, rfl⟩ := hcall
      exact .inl ⟨⟨nnn, hr⟩, (exec_call_sc he hu :)⟩
    · by_cases hret : i = .ret
      · subst hret
        exact .inr ⟨hr, (exec_ret_sc he hu :)⟩
      · have hsame := exec_sc he hu (fun nnn h => hcall ⟨nnn, h⟩) hret
        exact absurd (congrArg Fin.val hsame) hne

/-- Settles O18: the frame of every other instruction keeps the display. -/
theorem displayWrittenOnlyByClearAndDraw : Obligations.DisplayWrittenOnlyByClearAndDraw := by
  intro s t hstep hcls hdrw
  rcases step_cases hstep with ⟨f, rfl⟩ | ⟨i, u, hr, he, hu, rfl⟩
  · rfl
  · exact (exec_disp he hu (hr.ne_of_not_runs hcls) fun x y n => hr.ne_of_not_runs (hdrw x y n) :)

/-- Settles O19: where neither store runs, memory, the glyph table and the Reset number, all that a read looks at, are as
before. -/
theorem memoryWrittenOnlyByStores : Obligations.MemoryWrittenOnlyByStores := by
  intro s t hstep hbcd hregs a
  rcases step_cases hstep with ⟨f, rfl⟩ | ⟨i, u, hr, he, hu, rfl⟩
  · rfl
  · exact State.readByte_congr
      (exec_mem he hu (fun x => hr.ne_of_not_runs (hbcd x)) fun x => hr.ne_of_not_runs (hregs x))
      (exec_epoch he hu) (exec_glyphs he hu) a

/-- Settles O20: the frame of every other instruction keeps `I`. -/
theorem indexWrittenOnlyByThree : Obligations.IndexWrittenOnlyByThree := by
  intro s t hstep hld hadd hglyph
  rcases step_cases hstep with ⟨f, rfl⟩ | ⟨i, u, hr, he, hu, rfl⟩
  · rfl
  · exact (exec_i he hu (fun nnn => hr.ne_of_not_runs (hld nnn)) (fun x => hr.ne_of_not_runs (hadd x))
      fun x => hr.ne_of_not_runs (hglyph x) :)

/-- 0xF is the largest register number. -/
theorem lt_flag_of_ne {x : Nibble} (hx : x ≠ 0xF#4) : x.toNat < (0xF#4).toNat :=
  Nat.lt_of_le_of_ne (Nat.le_of_lt_succ x.isLt) fun h => hx (BitVec.eq_of_toNat_eq h)

theorem State.flag_setReg {x : Nibble} (hx : x ≠ 0xF#4) (s : State) (b : Byte) : (s.setReg x b).reg 0xF#4 = s.reg 0xF#4 := by
  rw [State.reg_setReg, if_neg hx.symm]

/-- Settles O21: the frame covers the instructions that write no register, and the others write `V[x]` with `x` not 0xF. -/
theorem flagRegisterWriters : Obligations.FlagRegisterWriters := by
  intro s t i hr hstep hi
  rcases step_cases hstep with ⟨f, rfl⟩ | ⟨j, u, hj, he, hu, rfl⟩
  · rfl
  obtain rfl := State.runs_unique hj hr
  have hframe := exec_framed he hu
  cases j with
  | addReg | subReg | shr | subnReg | shl | drw => exact hi.elim
  | ldImm | addImm | ldReg | orReg | andReg | xorReg | rnd | ldVxDt => cases he; exact State.flag_setReg hi _ _
  | ldVxK x =>
    obtain ⟨-, rfl⟩ | ⟨-, b, rfl⟩ := (exec_result he).resolve_left (not_takeFault hu)
    · rfl
    · exact State.flag_setReg hi _ _
  | loadRegs x =>
    obtain ⟨-, -, hreg⟩ := (exec_result he).resolve_left (not_takeFault hu)
    exact (hreg 0xF#4).trans (if_neg (Nat.not_le_of_lt (lt_flag_of_ne hi)))
  | _ => exact State.reg_congr (congrArg State.v hframe :) _

/-! ## `pc` after a Step (spec/10_state.md R25) -/

/-- A skip from the fetched state advances `pc` by 4 in all, and by 2 where its condition does not hold. -/
theorem State.skipIf_fetched_pc (s : State) (w : Word) (c : Bool) :
    ((s.fetched w).skipIf c).pc = s.pc + if c then 4#16 else 2#16 := by
  cases c with
  | true => exact BitVec.add_assoc s.pc 2#16 2#16
  | false => rfl

theorem execLdVxK_pc {x : Nibble} (he : exec (.ldVxK x) (s.fetched s.fetchWord) = .next u) (hf : u.flt = none) :
    u.pc = if s.key = 0#16 then s.pc else s.pc + 2#16 := by
  obtain ⟨hkey, rfl⟩ | ⟨hkey, b, rfl⟩ := (exec_result he).resolve_left (not_takeFault hf)
  · rw [s.key_fetched] at hkey
    rw [if_pos hkey]
    exact BitVec.add_sub_cancel s.pc 2#16
  · rw [s.key_fetched] at hkey
    rw [if_neg hkey]
    rfl

/-- Settles O16: the transfers and the skips set `pc` as their rules say; for the others the frame keeps the advanced `pc`. -/
theorem programCounterAfterStep : Obligations.ProgramCounterAfterStep := by
  intro s t i hr hstep hf
  obtain ⟨u, he, hu, rfl⟩ := step_completes hr hstep hf
  have hframe := exec_framed he hu
  cases i with
  | ret =>
    intro k hk
    rw [execRet_ok (s.fetched s.fetchWord) k hk] at he
    cases he
    rfl
  | call nnn =>
    obtain ⟨-, rfl⟩ := (exec_result he).resolve_left (not_takeFault hu)
    exact zextAddr_toNat nnn
  | jp nnn => cases he; exact zextAddr_toNat nnn
  | jpV0 nnn => cases he; exact State.indexedTarget_toNat _ nnn
  | seImm x kk => cases he; exact (s.skipIf_fetched_pc _ (s.reg x == kk)).trans (by simp only [beq_iff_eq])
  | seReg x y => cases he; exact (s.skipIf_fetched_pc _ (s.reg x == s.reg y)).trans (by simp only [beq_iff_eq])
  | sneImm x kk => cases he; exact (s.skipIf_fetched_pc _ (s.reg x != kk)).trans (by simp only [bne_iff_ne, ne_eq, ite_not])
  | sneReg x y => cases he; exact (s.skipIf_fetched_pc _ (s.reg x != s.reg y)).trans (by simp only [bne_iff_ne, ne_eq, ite_not])
  | skp x =>
    rw [exec_skp] at he
    cases he
    exact s.skipIf_fetched_pc _ (s.key.getLsbD ((s.reg x).toNat % 16))
  | sknp x =>
    rw [exec_sknp] at he
    cases he
    exact (s.skipIf_fetched_pc _ (!s.key.getLsbD ((s.reg x).toNat % 16))).trans (by cases s.key.getLsbD _ <;> rfl)
  | ldVxK x => exact (execLdVxK_pc he hu :)
  | _ => exact (congrArg State.pc hframe :)

end Sys2Proof.Machine
end

section
/-! What stops the machine, and the invariant every Step keeps (spec/60_exceptions.md, spec/10_state.md). -/

namespace Sys2Proof.Machine

variable {s t u : State} {i : Instr} {f : FltRecord} {r : Raised}

/-! ## The faults of R171 and their conditions -/

/-- When the instruction raises the fault from the state, and with what info (R171, R174 to R176): the alternatives of
`exec_raises`. -/
def Raised.Condition (r : Raised) (i : Instr) (s : State) : Prop :=
  match r with
  | .fetchRange _ => False
  | .memRange a => a = max s.i.toNat 4096 ∧
      ((∃ x, i = .ldB x ∧ 0xFFF < s.i.toNat + 2) ∨ (∃ x, i = .storeRegs x ∧ 0xFFF < s.i.toNat + x.toNat) ∨
        (∃ x, i = .loadRegs x ∧ 0xFFF < s.i.toNat + x.toNat) ∨
        ∃ x y n, i = .drw x y n ∧ 0 < n.toNat ∧ 4096 < s.i.toNat + n.toNat)
  | .displayRange idx => ∃ x y n, i = .drw x y n ∧ (n.toNat = 0 ∨ s.i.toNat + n.toNat ≤ 4096) ∧ 2048 ≤ idx ∧
      s.Covers x y n idx ∧ ∀ a, s.Covers x y n a → 2048 ≤ a → idx ≤ a
  | .stackOverflow => (∃ nnn, i = .call nnn) ∧ s.sc.val = 16
  | .stackUnderflow => i = .ret ∧ s.sc.val = 0

/-- The record of a fault raised in the Step that begins in `s`. -/
def Raised.record (r : Raised) (s : State) : FltRecord := ⟨r.cause, s.pc, some s.fetchWord, r.info⟩

/-- The fetch changes nothing that a condition looks at. -/
theorem condition_of_fetched {w : Word} (h : r.Condition i (s.fetched w)) : r.Condition i s := by
  cases r <;> exact h

/-- A meaning's fault is put back at the instruction, whose address the fetch advanced. -/
theorem State.takeFault_fetched_flt (s : State) (r : Raised) :
    ((s.fetched s.fetchWord).takeFault r).flt = some (r.record s) := by
  rw [State.takeFault_flt, State.fetched_pc, BitVec.add_sub_cancel]
  rfl

/-- How a Step comes to end with a latched record: the fetch was out of the space, or the instruction raised a fault on its
condition. -/
theorem step_faults (hs : s.flt = none) (h : step s = .next t) (hf : t.flt = some f) :
    t = { s with flt := some f } ∧
      ((0xFFF ≤ s.pc.toNat ∧ f = ⟨.fetchRange, s.pc, none, some s.pc.toNat⟩) ∨
        ∃ (i : Instr) (r : Raised), s.Runs i ∧ r.Condition i s ∧ f = r.record s) := by
  rcases step_inv h with ⟨hne, -⟩ | ⟨-, hpc, rfl⟩ | ⟨i, u, hr, he, rfl⟩
  · exact absurd hs hne
  · cases hf
    exact ⟨rfl, .inl ⟨hpc, rfl⟩⟩
  · rcases exec_raises (s := s.fetched s.fetchWord) hs he with hu | ⟨r, rfl, hcond⟩
    · rw [s.endStep_ok u hu] at hf
      exact absurd (hu.symm.trans hf) nofun
    · rw [s.endStep_fault _ _ (s.takeFault_fetched_flt r)] at hf ⊢
      cases hf
      exact ⟨rfl, .inr ⟨i, r, hr, condition_of_fetched (by cases r <;> exact hcond), rfl⟩⟩

/-- A fault an instruction raises is none of the fetch. -/
theorem Raised.Condition.cause_ne (h : r.Condition i s) : r.cause ≠ .fetchRange := by
  cases r with
  | fetchRange a => exact h.elim
  | _ => nofun

/-- Settles O13: both ways to a latched record keep the state the Step began in. -/
theorem faultingStepCommitsNothing : Obligations.FaultingStepCommitsNothing := by
  intro s t f hs hstep hf
  obtain ⟨ht, ⟨-, rfl⟩ | ⟨i, r, -, hcond, rfl⟩⟩ := step_faults hs hstep hf
  · exact ⟨ht, rfl, iff_of_true rfl rfl, nofun⟩
  · exact ⟨ht, rfl, iff_of_false nofun hcond.cause_ne, fun w hw => (Option.some.inj hw).symm⟩

/-- A sprite that covers a pixel has a row, so its rows lie in memory where those of a non-empty sprite do. -/
theorem State.Covers.rows_in_memory {x y n : Nibble} {idx : Nat} (hc : s.Covers x y n idx)
    (h : n.toNat = 0 ∨ s.i.toNat + n.toNat ≤ 4096) : s.i.toNat + n.toNat ≤ 4096 := by
  obtain ⟨r, c, ⟨hr, -, -⟩, -⟩ := hc
  omega

/-- Settles O14: the condition of the raised fault, cause by cause. -/
theorem faultsOnlyOnTheirConditions : Obligations.FaultsOnlyOnTheirConditions := by
  intro s t f hs hstep hf
  obtain ⟨-, ⟨hpc, rfl⟩ | ⟨i, r, hr, hcond, rfl⟩⟩ := step_faults hs hstep hf
  · exact ⟨hpc, rfl⟩
  cases r with
  | fetchRange a => exact hcond.elim
  | memRange a =>
    obtain ⟨rfl, hwho⟩ := hcond
    refine ⟨rfl, ?_⟩
    rcases hwho with ⟨x, rfl, h⟩ | ⟨x, rfl, h⟩ | ⟨x, rfl, h⟩ | ⟨x, y, n, rfl, h⟩
    · exact .inl ⟨x, hr, h⟩
    · exact .inr (.inl ⟨x, hr, h⟩)
    · exact .inr (.inr (.inl ⟨x, hr, h⟩))
    · exact .inr (.inr (.inr ⟨x, y, n, hr, h⟩))
  | displayRange idx =>
    obtain ⟨x, y, n, rfl, hrows, hfar, hcov, hfirst⟩ := hcond
    exact ⟨x, y, n, idx, hr, hcov.rows_in_memory hrows, rfl, hfar, hcov, hfirst⟩
  | stackOverflow =>
    obtain ⟨⟨nnn, rfl⟩, hsc⟩ := hcond
    exact ⟨⟨nnn, hr⟩, hsc, rfl⟩
  | stackUnderflow =>
    obtain ⟨rfl, hsc⟩ := hcond
    exact ⟨hr, hsc, rfl⟩

/-! ## The invariant: the latch -/

/-- The record of a raised fault fits the state it stopped. -/
theorem Raised.Condition.record_fits (h : r.Condition i s) : (r.record s).fits s = true := by
  cases r with
  | fetchRange a => exact h.elim
  | memRange a => obtain ⟨rfl, -⟩ := h; simp [Raised.record, FltRecord.fits, Raised.cause, Raised.info]
  | displayRange idx =>
    obtain ⟨x, y, n, -, -, hfar, hcov, -⟩ := h
    simp [Raised.record, FltRecord.fits, Raised.cause, Raised.info, hfar, s.covers_le hcov]
  | stackOverflow =>
    have hsc : s.sc = 16 := Fin.ext h.2
    simp [Raised.record, FltRecord.fits, Raised.cause, Raised.info, hsc]
  | stackUnderflow =>
    have hsc : s.sc = 0 := Fin.ext h.2
    simp [Raised.record, FltRecord.fits, Raised.cause, Raised.info, hsc]

theorem fetchRecord_fits (h : 0xFFF ≤ s.pc.toNat) :
    (FltRecord.mk .fetchRange s.pc none (some s.pc.toNat)).fits s = true := by
  simp [FltRecord.fits, h]

/-- A faulting Step latches a fitting record and keeps the rest. -/
theorem inv_of_faultingStep (hinv : s.Inv) (hs : s.flt = none) (h : step s = .next t) (hf : t.flt = some f) : t.Inv := by
  obtain ⟨hmem, hpc, hstk, -⟩ := hinv
  obtain ⟨rfl, ⟨hfar, rfl⟩ | ⟨i, r, -, hcond, rfl⟩⟩ := step_faults hs h hf
  · exact ⟨hmem, hpc, hstk, fetchRecord_fits hfar⟩
  · exact ⟨hmem, hpc, hstk, hcond.record_fits⟩

theorem latchFits_of_none (h : s.flt = none) : s.latchFits = true := by
  rw [State.latchFits, h]

/-! ## The invariant: memory, the stack and `pc` -/

/-- The two stores keep the canonical form, as every byte they store lies in the space. -/
theorem exec_keeps_wf (he : exec i s = .next u) (hf : u.flt = none) (hm : s.mem.wf s.glyphs = true) :
    u.mem.wf u.glyphs = true := by
  cases i with
  | ldB x =>
    obtain ⟨hi, rfl⟩ := (exec_result he).resolve_left (not_takeFault hf)
    exact storeBytes_keeps_wf _ (by rw [decimalDigits, List.length_cons, List.length_cons, List.length_singleton]; omega) hm
  | storeRegs x =>
    obtain ⟨hi, rfl⟩ := (exec_result he).resolve_left (not_takeFault hf)
    exact storeBytes_keeps_wf _ (by rw [s.regsUpTo_length]; omega) hm
  | _ => rwa [exec_mem he hf nofun nofun, exec_glyphs he hf]

/-- Call pushes the advanced `pc`, Return only drops an entry, and the others keep the stack. -/
theorem exec_keeps_stack (he : exec i s = .next u) (hf : u.flt = none) (hpc : 2 ≤ s.pc.toNat ∧ s.pc.toNat ≤ 0x1000)
    (hstk : s.StackHoldsReturnAddresses) : u.StackHoldsReturnAddresses := by
  cases i with
  | call nnn =>
    obtain ⟨hlt, rfl⟩ := (exec_result he).resolve_left (not_takeFault hf)
    intro k hk
    have hk : k.val < s.sc.val + 1 := hk
    simp only [State.setPc_stk, Vector.getElem_set]
    split
    · exact hpc
    · exact hstk k (by omega)
  | ret =>
    obtain ⟨j, hj, rfl⟩ := (exec_result he).resolve_left (not_takeFault hf)
    intro k hk
    have hk : k.val < j.val := hk
    exact hstk k (by omega)
  | _ =>
    intro k hk
    rw [exec_sc he hf nofun nofun] at hk
    simp only [exec_stk he hf nofun]
    exact hstk k hk

/-- An advance of `pc` by 2 or by 4 does not wrap. -/
theorem add_ite_toNat_le {a : Word} {c : Prop} [Decidable c] {d e : Word} (ha : a.toNat + 1 ≤ 0xFFF) (hd : d.toNat ≤ 4)
    (he : e.toNat ≤ 4) : (a + if c then d else e).toNat ≤ 0x10FE := by
  split <;> rw [BitVec.toNat_add] <;> omega

/-- The table of R25 bounds `pc`: a return address, an immediate, `V[0] + nnn`, or an advance from inside the space. -/
theorem step_keeps_pc_le (hstk : s.StackHoldsReturnAddresses) (hr : s.Runs i) (h : step s = .next t) (hf : t.flt = none) :
    t.pc.toNat ≤ 0x10FE := by
  have htable := programCounterAfterStep s t i hr h hf
  have hpc : s.pc.toNat + 1 ≤ 0xFFF := hr.pc_le
  cases i with
  | ret =>
    obtain ⟨u, he, hu, -⟩ := step_completes hr h hf
    obtain ⟨k, hk, -⟩ := (exec_result he).resolve_left (not_takeFault hu)
    have hk : s.sc.val = k.val + 1 := hk
    rw [htable k hk]
    exact Nat.le_trans (hstk k (by omega)).2 (by decide)
  | jp nnn | call nnn =>
    have hnnn : nnn.toNat < 4096 := nnn.isLt
    exact htable.trans_le (by omega)
  | jpV0 nnn =>
    have hbyte : (s.reg 0x0#4).toNat < 256 := (s.reg 0x0#4).isLt
    have hnnn : nnn.toNat < 4096 := nnn.isLt
    exact htable.trans_le (by omega)
  | seImm | sneImm | seReg | sneReg | skp | sknp =>
    rw [htable]
    exact add_ite_toNat_le hpc (by decide) (by decide)
  | ldVxK x =>
    rw [htable]
    split
    · omega
    · rw [BitVec.toNat_add, BitVec.toNat_ofNat]; omega
  | _ =>
    have htable : t.pc = s.pc + 2#16 := htable
    rw [htable, BitVec.toNat_add, BitVec.toNat_ofNat]
    omega

/-- The fetch advances `pc` to a return address. -/
theorem State.fetched_pc_bounds (h : s.pc.toNat + 1 ≤ 0xFFF) (w : Word) :
    2 ≤ (s.fetched w).pc.toNat ∧ (s.fetched w).pc.toNat ≤ 0x1000 := by
  rw [State.fetched_pc, BitVec.toNat_add, BitVec.toNat_ofNat]
  omega

/-- Settles O27: a halted Step changes nothing, a faulting one latches a fitting record, and one that completes keeps each
part by its own lemma. -/
theorem stepKeepsInv : Obligations.StepKeepsInv := by
  intro s t hinv hstep
  cases hs : s.flt with
  | some f =>
    rw [step_of_halted (by rw [hs]; nofun)] at hstep
    cases hstep
    exact hinv
  | none =>
    cases hf : t.flt with
    | some f => exact inv_of_faultingStep hinv hs hstep hf
    | none =>
      obtain ⟨hmem, -, hstk, -⟩ := hinv
      rcases step_inv hstep with ⟨hne, -⟩ | ⟨-, -, rfl⟩ | ⟨i, -, hr, -, -⟩
      · exact absurd hs hne
      · cases hf
      · have hpc : t.pc.toNat ≤ 0x10FE := step_keeps_pc_le hstk hr hstep hf
        obtain ⟨u, he, hu, rfl⟩ := step_completes hr hstep hf
        have hstack := exec_keeps_stack he hu (s.fetched_pc_bounds hr.pc_le _) hstk
        have hcanonical := exec_keeps_wf he hu hmem
        exact ⟨hcanonical, hpc, hstack, latchFits_of_none hf⟩

/-! ## The inputs of a Step (spec/40_step_cycle.md R96) -/

/-- The state with other known inputs and another counter. -/
def State.withInputs (s : State) (samples : List StepInput) (tick : Nat) : State :=
  { s with inputs := samples, tick := tick }

theorem onlyInputsDiffer_withInputs (s : State) (samples : List StepInput) (n : Nat) :
    OnlyInputsDiffer s (s.withInputs samples n) := rfl

variable {samples : List StepInput} {n : Nat}

theorem State.skipIf_withInputs (s : State) (c : Bool) (samples : List StepInput) (n : Nat) :
    (s.withInputs samples n).skipIf c = (s.skipIf c).withInputs samples n := by
  cases c <;> rfl

theorem State.setRegsFrom_withInputs (bs : List Byte) (s : State) (k : Nat) (samples : List StepInput) (n : Nat) :
    (s.withInputs samples n).setRegsFrom k bs = (s.setRegsFrom k bs).withInputs samples n := by
  induction bs generalizing s k with
  | nil => rfl
  | cons b bs ih => exact ih { s with v := s.v.setIfInBounds k b } (k + 1)

/-- An instruction whose inputs are the same does the same, whatever else the inputs hold. -/
theorem exec_withInputs (he : exec i s = .next u)
    (hkey : (∃ x, i = .skp x ∨ i = .sknp x ∨ i = .ldVxK x) → s.key = (s.withInputs samples n).key)
    (hrnd : (∃ x kk, i = .rnd x kk) → s.rnd = (s.withInputs samples n).rnd) :
    exec i (s.withInputs samples n) = .next (u.withInputs samples n) := by
  cases i with
  | rnd x kk =>
    cases he
    rw [hrnd ⟨x, kk, rfl⟩]
    rfl
  | skp x =>
    rw [exec_skp, hkey ⟨x, .inl rfl⟩] at he
    cases he
    exact (exec_skp x _).trans (congrArg _ (State.skipIf_withInputs ..))
  | sknp x =>
    rw [exec_sknp, hkey ⟨x, .inr (.inl rfl)⟩] at he
    cases he
    exact (exec_sknp x _).trans (congrArg _ (State.skipIf_withInputs ..))
  | ldVxK x =>
    simp only [exec, execLdVxK, hkey ⟨x, .inr (.inr rfl)⟩] at he ⊢
    split at he <;> (cases he; rfl)
  | seImm | sneImm | seReg | sneReg =>
    cases he
    exact congrArg _ (State.skipIf_withInputs ..)
  | call nnn =>
    by_cases h : s.sc.val < 16
    · rw [execCall_ok nnn s h] at he; cases he; exact execCall_ok nnn (s.withInputs samples n) h
    · have h : s.sc.val = 16 := by have := s.sc_le; omega
      rw [execCall_full nnn s h] at he; cases he; exact execCall_full nnn (s.withInputs samples n) h
  | ret =>
    rcases s.pop_inv with ⟨h, -⟩ | ⟨k, h, -⟩
    · rw [execRet_empty s h] at he; cases he; exact execRet_empty (s.withInputs samples n) h
    · rw [execRet_ok s k h] at he; cases he; exact execRet_ok (s.withInputs samples n) k h
  | ldB x =>
    by_cases h : s.i.toNat + 2 ≤ 0xFFF
    · rw [execLdB_ok x s h] at he; cases he; exact execLdB_ok x (s.withInputs samples n) h
    · have h : 0xFFF < s.i.toNat + 2 := by omega
      rw [execLdB_fault x s h] at he; cases he; exact execLdB_fault x (s.withInputs samples n) h
  | storeRegs x =>
    by_cases h : s.i.toNat + x.toNat ≤ 0xFFF
    · rw [execStoreRegs_ok x s h] at he; cases he; exact execStoreRegs_ok x (s.withInputs samples n) h
    · have h : 0xFFF < s.i.toNat + x.toNat := by omega
      rw [execStoreRegs_fault x s h] at he; cases he; exact execStoreRegs_fault x (s.withInputs samples n) h
  | loadRegs x =>
    by_cases h : s.i.toNat + x.toNat ≤ 0xFFF
    · rw [execLoadRegs_ok x s h] at he
      cases he
      exact (execLoadRegs_ok x (s.withInputs samples n) h).trans (congrArg _ (State.setRegsFrom_withInputs ..))
    · have h : 0xFFF < s.i.toNat + x.toNat := by omega
      rw [execLoadRegs_fault x s h] at he; cases he; exact execLoadRegs_fault x (s.withInputs samples n) h
  | drw x y k =>
    by_cases h : k.toNat = 0 ∨ s.i.toNat + k.toNat ≤ 4096
    · rw [execDrw_read x y k s h] at he
      have hsame : exec (.drw x y k) (s.withInputs samples n) = _ := execDrw_read x y k (s.withInputs samples n) h
      have hpixels : plotPixels ((s.withInputs samples n).drawnPixels x y k) (s.withInputs samples n).disp false =
        plotPixels (s.drawnPixels x y k) s.disp false := rfl
      rw [hsame, hpixels]
      cases hp : plotPixels (s.drawnPixels x y k) s.disp false with
      | error r => rw [hp] at he; cases he; rfl
      | ok q => rw [hp] at he; cases he; rfl
    · have hk : k.toNat ≠ 0 := by omega
      have h : 4096 < s.i.toNat + k.toNat := by omega
      rw [execDrw_memFault x y k s hk h] at he
      cases he
      exact execDrw_memFault x y k (s.withInputs samples n) hk h
  | _ => cases he; rfl

/-- The end of a Step that differs in the inputs only. -/
theorem endStep_withInputs (s u : State) (samples : List StepInput) (n : Nat) :
    OnlyInputsDiffer (s.endStep u) ((s.withInputs samples n).endStep (u.withInputs samples n)) := by
  cases hu : u.flt with
  | none => rw [State.endStep_ok _ u hu, State.endStep_ok _ (u.withInputs samples n) hu]; rfl
  | some f => rw [State.endStep_fault _ u f hu, State.endStep_fault _ (u.withInputs samples n) f hu]; rfl

/-- Settles O22: the other state runs the same instruction, whose meaning differs in the inputs only. -/
theorem inputsReachOnlyTheirReaders : Obligations.InputsReachOnlyTheirReaders := by
  intro s s' t i hr hdiffer hstep hkey hrnd
  obtain ⟨samples, n, rfl⟩ : ∃ samples n, s' = s.withInputs samples n := ⟨_, _, hdiffer⟩
  obtain ⟨u, he⟩ := exec_next i (s.fetched s.fetchWord)
  rw [step_of_exec hr he] at hstep
  cases hstep
  have hr' : (s.withInputs samples n).Runs i := hr
  exact ⟨_, step_of_exec hr' (exec_withInputs he hkey hrnd), endStep_withInputs s u samples n⟩

end Sys2Proof.Machine
end

section
/-! Reset (spec/10_state.md R35, spec/70_reset_and_hazards.md R190, R191). -/

namespace Sys2Proof.Machine

variable {s : State}

/-! ## Memory nothing has written -/

theorem State.readByte_glyph (hm : s.mem = []) {k : Nat} (hk : k < 80) : s.readByte (0x050 + k) = s.glyphs[k] := by
  simp only [State.readByte, byteAt, knownByte, hm, listedByte, unlistedByte_glyph s.glyphs hk]

theorem State.readByte_memInit (hm : s.mem = []) {a : Nat} (ha : a < 0x050 ∨ 0x0A0 ≤ a) :
    s.readByte a = Config.memInit s.epoch a := by
  simp only [State.readByte, byteAt, knownByte, hm, listedByte, unlistedByte_outside s.glyphs ha]

/-! ## The state after Reset -/

theorem State.resetWith_reg (g : GlyphTable) (x : Nibble) : (State.resetWith g).reg x = 0#8 :=
  Vector.getElem_replicate x.isLt

theorem State.resetWith_pixel (g : GlyphTable) (idx : Nat) : (State.resetWith g).pixel idx = false :=
  pixelOf_clearDisplay idx

/-- Settles O23: the replicated registers and rows are zero, and unwritten memory shows the glyph table. -/
theorem resetAsTheSourceSays : Obligations.ResetAsTheSourceSays :=
  ⟨rfl, fun g => ⟨State.resetWith_reg g, rfl, rfl, rfl, rfl, fun idx _ => State.resetWith_pixel g idx,
    fun _ hk => State.readByte_glyph rfl hk⟩⟩

/-- Settles O24: with nothing written every cell outside the glyph table is `MEM_INIT`. -/
theorem resetByTheSpecsDecisions : Obligations.ResetByTheSpecsDecisions := fun _ =>
  ⟨rfl, rfl, fun _ ha => State.readByte_memInit rfl ha⟩

/-- Settles O25: a later Reset is the first one's state but for the Reset number and the inputs. -/
theorem laterResetStartsAfresh : Obligations.LaterResetStartsAfresh := fun s =>
  ⟨rfl, rfl, rfl, rfl, rfl, rfl, State.resetWith_reg s.glyphs, fun idx _ => State.resetWith_pixel s.glyphs idx, rfl,
    fun _ hk => State.readByte_glyph (s := s.reinit) rfl hk, fun _ ha => State.readByte_memInit (s := s.reinit) rfl ha⟩

theorem State.resetWith_inv (g : GlyphTable) : (State.resetWith g).Inv :=
  ⟨rfl, (by decide : (0x200#16).toNat ≤ 0x10FE), fun k hk => absurd hk (Nat.not_lt_zero k.val), rfl⟩

/-- Settles O26: memory lists nothing, the stack is empty and nothing is latched. -/
theorem resetMeetsInv : Obligations.ResetMeetsInv := ⟨State.resetWith_inv defaultGlyphs, State.resetWith_inv⟩

end Sys2Proof.Machine
end

section
/-! Memory as data: its canonical form, and a byte or an image written to it (spec/20_memory.md, spec/10_state.md R34,
R38, R41). -/

namespace Sys2Proof.Machine

variable {g : GlyphTable} {m k : Memory} {s t : State}

/-! ## Listings in canonical form -/

/-- A canonical listing gives no address the value it would read as unlisted. -/
theorem listedByte_ne_unlistedByte {lo a : Nat} {v : Byte} (hm : canonicalFrom g lo m = true)
    (h : listedByte m a = some v) : unlistedByte g a ≠ some v := by
  induction m generalizing lo with
  | nil => cases h
  | cons c rest ih =>
    obtain ⟨b, w⟩ := c
    obtain ⟨-, -, hne, hrest⟩ := canonicalFrom_cons.mp hm
    by_cases hab : a = b
    · subst hab
      rw [listedByte, if_pos rfl] at h
      rwa [← h]
    · rw [listedByte, if_neg hab] at h
      exact ih hrest h

/-- So what a canonical listing lists can be told from what the memory data says of the address. -/
theorem listedByte_eq_of_canonical {lo : Nat} (hm : canonicalFrom g lo m = true) (a : Nat) :
    listedByte m a = if knownByte g m a = unlistedByte g a then none else knownByte g m a := by
  cases h : listedByte m a with
  | none => simp only [knownByte, h, if_true]
  | some v =>
    have hne : unlistedByte g a ≠ some v := listedByte_ne_unlistedByte hm h
    simp only [knownByte, h, hne.symm, if_false]

/-- Canonical listings that list alike are equal: their first addresses are the least listed ones. -/
theorem eq_of_listedByte_eq {lo lo' : Nat} (hm : canonicalFrom g lo m = true) (hk : canonicalFrom g lo' k = true)
    (h : ∀ a, listedByte m a = listedByte k a) : m = k := by
  induction m generalizing lo lo' k with
  | nil =>
    cases k with
    | nil => rfl
    | cons d rest => simpa [listedByte] using h d.1
  | cons c mrest ih =>
    obtain ⟨a, v⟩ := c
    cases k with
    | nil => simpa [listedByte] using h a
    | cons d krest =>
      obtain ⟨b, w⟩ := d
      obtain ⟨-, -, -, hmrest⟩ := canonicalFrom_cons.mp hm
      obtain ⟨-, -, -, hkrest⟩ := canonicalFrom_cons.mp hk
      obtain rfl : a = b := by
        rcases Nat.lt_trichotomy a b with hlt | heq | hlt
        · simpa [listedByte, Nat.ne_of_lt hlt, listedByte_below hkrest (Nat.lt_succ_of_lt hlt)] using h a
        · exact heq
        · simpa [listedByte, Nat.ne_of_lt hlt, listedByte_below hmrest (Nat.lt_succ_of_lt hlt)] using h b
      obtain rfl : v = w := by simpa [listedByte] using h a
      have hrest : ∀ c, listedByte mrest c = listedByte krest c := by
        intro c
        by_cases hc : c = a
        · rw [listedByte_below hmrest (by omega), listedByte_below hkrest (by omega)]
        · simpa [listedByte, hc] using h c
      rw [ih hmrest hkrest hrest]

/-- Settles O28: what is known of the addresses fixes what is listed, and that fixes the list. -/
theorem canonicalMemoryIsUnique : Obligations.CanonicalMemoryIsUnique := fun _ _ _ hm hk h =>
  eq_of_listedByte_eq hm hk fun a => by rw [listedByte_eq_of_canonical hm, listedByte_eq_of_canonical hk, h]

/-! ## One byte written -/

/-- The state with a byte stored. -/
def State.withByte (s : State) (a : Nat) (b : Byte) : State := { s with mem := storeByte s.glyphs s.mem a b }

theorem onlyMemChanges_withByte (s : State) (a : Nat) (b : Byte) : OnlyMemChanges s (s.withByte a b) := rfl

theorem State.readByte_withByte (s : State) (a c : Nat) (b : Byte) :
    (s.withByte a b).readByte c = if c = a then b else s.readByte c :=
  byteAt_storeByte s.glyphs s.epoch s.mem a c b

theorem State.withByte_wf {a : Nat} (b : Byte) (ha : a < 4096) (hm : s.mem.wf s.glyphs = true) :
    (s.withByte a b).mem.wf (s.withByte a b).glyphs = true := storeByte_keeps_wf b ha hm

theorem State.memWrite_ok {a : Nat} (s : State) (b : Byte) (ha : a < 4096) : s.memWrite a b = .ok (s.withByte a b) := if_pos ha

theorem State.memRead_ok {a : Nat} (s : State) (ha : a < 4096) : s.memRead a = .ok (s.readByte a) := if_pos ha

/-- Settles O50: inside the space a byte write is one byte stored. -/
theorem memoryReadsLatestWrite : Obligations.MemoryReadsLatestWrite := by
  intro s a b ha
  have ha : a < 4096 := by omega
  refine ⟨_, s.memWrite_ok b ha, onlyMemChanges_withByte s a b, ?_, fun c hc => ?_, State.withByte_wf b ha⟩
  · rw [State.memRead_ok _ ha, State.readByte_withByte, if_pos rfl]
  · rw [State.readByte_withByte, if_neg hc]

/-! ## A block of bytes written -/

/-- The state with bytes stored at ascending addresses. -/
def State.withBytes (s : State) (a : Nat) (bs : List Byte) : State := { s with mem := storeBytes s.glyphs s.mem a bs }

theorem onlyMemChanges_withBytes (s : State) (a : Nat) (bs : List Byte) : OnlyMemChanges s (s.withBytes a bs) := rfl

theorem State.readByte_withBytes_of_getElem? {bs : List Byte} {j : Nat} {b : Byte} (s : State) (a : Nat)
    (h : bs[j]? = some b) : (s.withBytes a bs).readByte (a + j) = b := by
  have hread := byteAt_storeBytes s.glyphs s.epoch bs s.mem a (a + j)
  rwa [if_pos (Nat.le_add_right a j), Nat.add_sub_cancel_left, h] at hread

theorem State.readByte_withBytes_outside {bs : List Byte} (s : State) {a c : Nat} (h : c < a ∨ a + bs.length ≤ c) :
    (s.withBytes a bs).readByte c = s.readByte c := by
  have hread := byteAt_storeBytes s.glyphs s.epoch bs s.mem a c
  rcases h with hbelow | habove
  · rwa [if_neg (by omega)] at hread
  · rwa [List.getElem?_eq_none (by omega), Option.getD_none, ite_self] at hread

/-! ## The loader -/

theorem State.load_ok {image : List Byte} (s : State) (h : image.length ≤ 3584) :
    s.load image = some (s.withBytes 0x200 image) :=
  if_pos (by simp only [Config.progBase, Config.memSize]; omega)

theorem State.load_refused {image : List Byte} (s : State) (h : 3584 < image.length) : s.load image = none :=
  if_neg (by simp only [Config.progBase, Config.memSize]; omega)

theorem State.loaderWrite_isSome (s : State) (a : Nat) (b : Byte) :
    (s.loaderWrite a b).isSome = decide (0x200 ≤ a ∧ a ≤ 0xFFF) := by
  unfold State.loaderWrite
  split
  · rename_i h; exact (decide_eq_true ⟨h.1, Nat.le_of_lt_succ h.2⟩).symm
  · rename_i h; exact (decide_eq_false fun h' => h ⟨h'.1, Nat.lt_succ_of_le h'.2⟩).symm

/-- Settles O60: the image is a block stored at 0x200, and a later write is one byte stored. -/
theorem loaderPlacesImage : Obligations.LoaderPlacesImage := by
  refine ⟨fun s image hlen => ⟨_, s.load_ok hlen, onlyMemChanges_withBytes s _ _, fun j hj => ?_, fun a ha => ?_, ?_⟩,
    fun s _ => s.load_refused, State.loaderWrite_isSome, fun s t a b h => ?_⟩
  · exact s.readByte_withBytes_of_getElem? _ (List.getElem?_eq_getElem hj)
  · exact s.readByte_withBytes_outside ha
  · exact storeBytes_keeps_wf image (by omega)
  · obtain ⟨-, ha, rfl⟩ := State.loaderWrite_inv h
    refine ⟨onlyMemChanges_withByte s a b, ?_, fun c hc => ?_, State.withByte_wf b ha⟩
    · exact (s.readByte_withByte a a b).trans (if_pos rfl)
    · exact (s.readByte_withByte a c b).trans (if_neg hc)

end Sys2Proof.Machine
end

section
/-! Store-BCD, Store-regs and Load-regs (spec/44_index_memory.md R143 to R145), and a store that the next fetch sees
(spec/20_memory.md R62). -/

namespace Sys2Proof.Machine

variable {s t : State} {x : Nibble} {i : Instr}

/-- Taking a fault is what the statements ask of one. -/
theorem faultTaken_takeFault (s : State) (r : Raised) : FaultTaken s (s.takeFault r) r.cause r.info := rfl

/-! ## The decimal digits of a byte -/

theorem decimalDigits_length (b : Byte) : (decimalDigits b).length = 3 := rfl

theorem decimalDigits_getElem?_toNat (b : Byte) {k : Nat} (hk : k < 3) :
    ∃ d, (decimalDigits b)[k]? = some d ∧ d.toNat = b.toNat / 10 ^ (2 - k) % 10 := by
  have hb : b.toNat < 256 := b.isLt
  refine ⟨(decimalDigits b)[k]'hk, List.getElem?_eq_getElem hk, ?_⟩
  interval_cases k <;> simp [decimalDigits] <;> omega

/-! ## Store-BCD -/

theorem State.readByte_withBytes_digit (s : State) (a : Nat) (b : Byte) {k : Nat} (hk : k < 3) :
    ((s.withBytes a (decimalDigits b)).readByte (a + k)).toNat = b.toNat / 10 ^ (2 - k) % 10 := by
  obtain ⟨d, hd, hnum⟩ := decimalDigits_getElem?_toNat b hk
  rw [s.readByte_withBytes_of_getElem? _ hd, hnum]

/-- Settles O46: the three digits are stored as a block, and they are the number's. -/
theorem storeBcdWritesDigits : Obligations.StoreBcdWritesDigits := by
  refine ⟨fun _ => decode_eq_ldB, fun x s h => ?_, fun x s h => ⟨_, execLdB_fault x s h, faultTaken_takeFault s _⟩⟩
  have hhundreds := s.readByte_withBytes_digit s.i.toNat (s.reg x) (k := 0) (by omega)
  have htens := s.readByte_withBytes_digit s.i.toNat (s.reg x) (k := 1) (by omega)
  have hones := s.readByte_withBytes_digit s.i.toNat (s.reg x) (k := 2) (by omega)
  have hbyte : (s.reg x).toNat < 256 := (s.reg x).isLt
  simp only [Nat.add_zero, Nat.reduceSub, Nat.reducePow] at hhundreds htens hones
  refine ⟨s.withBytes s.i.toNat (decimalDigits (s.reg x)), execLdB_ok x s h, onlyMemChanges_withBytes s _ _,
    ?_, ?_, ?_, ?_, fun a ha => ?_⟩
  · omega
  · omega
  · omega
  · omega
  · exact s.readByte_withBytes_outside (by rw [decimalDigits_length]; omega)

/-! ## Store-regs and Load-regs -/

theorem State.readByte_withBytes_regsUpTo {r : Nibble} (s : State) (hr : r.toNat ≤ x.toNat) :
    (s.withBytes s.i.toNat (s.regsUpTo x)).readByte (s.i.toNat + r.toNat) = s.reg r :=
  s.readByte_withBytes_of_getElem? _ (s.regsUpTo_getElem x r hr)

/-- Settles O47: the registers up to `x` are stored as a block, register `r` at place `r`. -/
theorem storeRegsWritesRegisters : Obligations.StoreRegsWritesRegisters := by
  refine ⟨fun _ => decode_eq_storeRegs, fun x s h => ?_,
    fun x s h => ⟨_, execStoreRegs_fault x s h, faultTaken_takeFault s _⟩⟩
  refine ⟨_, execStoreRegs_ok x s h, onlyMemChanges_withBytes s _ _, fun r => s.readByte_withBytes_regsUpTo, fun a ha => ?_⟩
  exact s.readByte_withBytes_outside (by rw [s.regsUpTo_length]; omega)

/-- Settles O48: the bytes from `I` upward are loaded as a block. -/
theorem loadRegsReadsMemory : Obligations.LoadRegsReadsMemory :=
  ⟨fun _ => decode_eq_loadRegs,
    fun x s h => ⟨_, execLoadRegs_ok x s h, State.setRegsFrom_frame _ s 0, fun r => s.reg_loadBlock x r⟩,
    fun x s h => ⟨_, execLoadRegs_fault x s h, faultTaken_takeFault s _⟩⟩

/-- Settles O49: the load reads the bytes the store wrote up to `x`, and above `x` the registers were kept. -/
theorem storeThenLoadRestoresRegisters : Obligations.StoreThenLoadRestoresRegisters := by
  intro x s t v h hkept he
  rw [execStoreRegs_ok x s h] at he
  cases he
  refine ⟨_, execLoadRegs_ok x { s.withBytes s.i.toNat (s.regsUpTo x) with v := v } h, fun r => ?_⟩
  rw [State.reg_loadBlock]
  split
  · rename_i hr; exact s.readByte_withBytes_regsUpTo hr
  · rename_i hr; exact hkept r (by omega)

/-! ## The fetch after a store -/

/-- After a Step that stores a block at `I` the next Step fetches at the advanced `pc`, and each half of its word is the
stored byte where the block reaches its address and the old byte where it does not. -/
theorem fetch_after_store {bs : List Byte} (hr : s.Runs i)
    (he : exec i (s.fetched s.fetchWord) = .next ((s.fetched s.fetchWord).withBytes s.i.toNat bs))
    (hpc : s.pc.toNat + 3 ≤ 0xFFF) (hstep : step s = .next t) :
    t.pc = s.pc + 2#16 ∧ t.Runs (decode t.fetchWord) ∧
      (∀ (j : Nat) (b : Byte), bs[j]? = some b →
        (s.i.toNat + j = s.pc.toNat + 2 → t.fetchWord.toNat / 256 = b.toNat) ∧
        (s.i.toNat + j = s.pc.toNat + 3 → t.fetchWord.toNat % 256 = b.toNat)) ∧
      (s.pc.toNat + 2 < s.i.toNat ∨ s.i.toNat + bs.length ≤ s.pc.toNat + 2 →
        t.fetchWord.toNat / 256 = (s.readByte (s.pc.toNat + 2)).toNat) ∧
      (s.pc.toNat + 3 < s.i.toNat ∨ s.i.toNat + bs.length ≤ s.pc.toNat + 3 →
        t.fetchWord.toNat % 256 = (s.readByte (s.pc.toNat + 3)).toNat) := by
  rw [step_of_runs_ok hr he hr.flt_eq_none] at hstep
  cases hstep
  have hadvance : (s.pc + 2#16).toNat = s.pc.toNat + 2 := by
    rw [BitVec.toNat_add, BitVec.toNat_ofNat]
    omega
  have hword : (((s.fetched s.fetchWord).withBytes s.i.toNat bs).decayTimers.nextInput).fetchWord.toNat =
      256 * ((s.withBytes s.i.toNat bs).readByte (s.pc.toNat + 2)).toNat +
        ((s.withBytes s.i.toNat bs).readByte (s.pc.toNat + 3)).toNat := by
    rw [show s.pc.toNat + 3 = (s.pc + 2#16).toNat + 1 by omega, ← hadvance]
    exact State.fetchWord_toNat _
  have hlow : ((s.withBytes s.i.toNat bs).readByte (s.pc.toNat + 3)).toNat < 256 := BitVec.isLt _
  refine ⟨rfl, State.runs_decode hr.flt_eq_none (hadvance.symm ▸ by omega), fun j b hj => ⟨fun ha => ?_, fun ha => ?_⟩,
    fun ha => ?_, fun ha => ?_⟩
  · rw [← s.readByte_withBytes_of_getElem? s.i.toNat hj, ha]
    omega
  · rw [← s.readByte_withBytes_of_getElem? s.i.toNat hj, ha]
    omega
  · rw [← s.readByte_withBytes_outside ha]
    omega
  · rw [← s.readByte_withBytes_outside ha]
    omega

/-- Settles O51: both stores are blocks stored at `I`, of the registers and of the digits. -/
theorem storeSeenByNextFetch : Obligations.StoreSeenByNextFetch := by
  refine ⟨fun s t x hr hi hpc hstep => ?_, fun s t x hr hi hpc hstep => ?_⟩
  · obtain ⟨htpc, hruns, hstored, hhigh, hlow⟩ :=
      fetch_after_store hr (execStoreRegs_ok x (s.fetched s.fetchWord) hi) hpc hstep
    rw [State.regsUpTo_length] at hhigh hlow
    exact ⟨htpc, hruns, fun r hr => (hstored _ _ (s.regsUpTo_getElem x r hr)).1,
      fun r hr => (hstored _ _ (s.regsUpTo_getElem x r hr)).2, fun h => hhigh (by omega), fun h => hlow (by omega)⟩
  · obtain ⟨htpc, hruns, hstored, hhigh, hlow⟩ := fetch_after_store hr (execLdB_ok x (s.fetched s.fetchWord) hi) hpc hstep
    rw [decimalDigits_length] at hhigh hlow
    refine ⟨htpc, hruns, fun k hk ha => ?_, fun k hk ha => ?_, fun h => hhigh (by omega), fun h => hlow (by omega)⟩
    · obtain ⟨d, hd, hnum⟩ := decimalDigits_getElem?_toNat (s.reg x) hk
      exact ((hstored k d hd).1 ha).trans hnum
    · obtain ⟨d, hd, hnum⟩ := decimalDigits_getElem?_toNat (s.reg x) hk
      exact ((hstored k d hd).2 ha).trans hnum

end Sys2Proof.Machine
end

section
/-! Call, Return and the Jump to itself (spec/41_control_transfer.md R100, R102, spec/70_reset_and_hazards.md R193). -/

namespace Sys2Proof.Machine

variable {s : State} {nnn : Addr12}

/-- The slots after a Call: the one at the old count holds the advanced `pc`. -/
theorem stk_set_getElem (s : State) (h : s.sc.val < 16) (a : Word) (k : Fin 16) :
    (s.stk.set s.sc.val a h)[k.val] = if k.val = s.sc.val then a else s.stk[k.val] := by
  rw [Vector.getElem_set]
  exact if_congr eq_comm rfl rfl

/-- Settles O30: a push below 16 entries, and the fault with 16. -/
theorem callPushesReturnAddress : Obligations.CallPushesReturnAddress :=
  ⟨fun _ => decode_eq_call,
    fun nnn s h => ⟨_, execCall_ok nnn s h, rfl, rfl, zextAddr_toNat nnn, stk_set_getElem s h s.pc⟩,
    fun nnn s h => ⟨_, execCall_full nnn s h, faultTaken_takeFault s _⟩⟩

/-- Settles O31: a pop with entries on the stack, and the fault with none. -/
theorem returnPopsProgramCounter : Obligations.ReturnPopsProgramCounter :=
  ⟨fun _ => decode_eq_ret, fun s k h => ⟨_, execRet_ok s k h, rfl, rfl, rfl, rfl⟩,
    fun s h => ⟨_, execRet_empty s h, faultTaken_takeFault s _⟩⟩

/-- Settles O32: the Return pops the slot the Call pushed, since the count is one more than that slot's number. -/
theorem callThenReturnRestoresProgramCounter : Obligations.CallThenReturnRestoresProgramCounter := by
  intro nnn s t a w hsc he
  have hlt : s.sc.val < 16 := by omega
  rw [execCall_ok nnn s hlt] at he
  cases he
  refine ⟨_, execRet_ok _ ⟨s.sc.val, hlt⟩ rfl, ?_, rfl, rfl⟩
  exact (stk_set_getElem s hlt s.pc ⟨s.sc.val, hlt⟩).trans (if_pos rfl)

/-- The Step of a Jump to its own address is the fetch with `pc` put back, and the Step's end. -/
theorem step_selfJump (hr : s.Runs (.jp nnn)) (hself : s.pc.toNat = nnn.toNat) :
    step s = .next ((s.fetched s.fetchWord).setPc s.pc).decayTimers.nextInput := by
  have htarget : zextAddr nnn = s.pc := BitVec.eq_of_toNat_eq ((zextAddr_toNat nnn).trans hself.symm)
  have he : exec (.jp nnn) (s.fetched s.fetchWord) = .next ((s.fetched s.fetchWord).setPc s.pc) := by
    rw [exec_jp, htarget]
  exact step_of_runs_ok hr he hr.flt_eq_none

/-- Settles O33: the Jump undoes the fetch's advance of `pc`, and the Step's end changes timers and inputs only. -/
theorem selfJumpParks : Obligations.SelfJumpParks := fun s _ hr hself =>
  ⟨_, step_selfJump hr hself, rfl, decay_toNat s.dt, decay_toNat s.st⟩

end Sys2Proof.Machine
end

section
/-! Add, Sub, Subn and Shift-left, each a flag write and then a result write, and Random (spec/43_load_alu.md R126, R127,
R129 to R131, R133). -/

namespace Sys2Proof.Machine

variable {s t : State} {i : Instr} {x y : Nibble} {b c : Byte}

/-! ## The flags as numbers -/

theorem carryFlag_eq (a b : Byte) : carryFlag a b = if a.toNat + b.toNat > 255 then 1#8 else 0#8 := by
  simp only [carryFlag, flagByte, decide_eq_true_eq]

theorem greaterFlag_eq (a b : Byte) : greaterFlag a b = if a.toNat > b.toNat then 1#8 else 0#8 := by
  simp only [greaterFlag, flagByte, decide_eq_true_eq]

theorem flagByte_toNat (c : Bool) : (flagByte c).toNat = if c then 1 else 0 := by
  cases c <;> rfl

theorem greaterFlag_toNat (a b : Byte) : (greaterFlag a b).toNat = if a.toNat > b.toNat then 1 else 0 := by
  simp only [greaterFlag, flagByte_toNat, decide_eq_true_eq]

theorem highBitFlag_toNat (a : Byte) : (highBitFlag a).toNat = a.toNat / 128 := by
  have ha : a.toNat < 256 := a.isLt
  have hbit : a.getLsbD 7 = decide (a.toNat / 128 % 2 = 1) := Nat.testBit_eq_decide_div_mod_eq
  simp only [highBitFlag, flagByte_toNat, hbit, decide_eq_true_eq]
  split <;> omega

/-- A difference of bytes as a number. -/
theorem byte_sub_toNat (a b : Byte) : (a - b).toNat = (a.toNat + 256 - b.toNat) % 256 := by
  have hb : b.toNat < 256 := b.isLt
  rw [BitVec.toNat_sub, show 2 ^ 8 - b.toNat + a.toNat = a.toNat + 256 - b.toNat by omega]

/-- A left shift of a byte by one as a number. -/
theorem byte_shiftLeft_one_toNat (a : Byte) : (a <<< 1).toNat = 2 * a.toNat % 256 := by
  rw [BitVec.toNat_shiftLeft, Nat.shiftLeft_eq, Nat.pow_one, Nat.mul_comm]

/-! ## A flag write, then a result write -/

/-- The one argument behind the flag-producing instructions: `V[x]` ends as the result, VF, unless it is `V[x]`, as the flag,
and everything else stays. -/
theorem exec_flag_then_result (hexec : exec i s = .next ((s.setFlag b).setReg x c)) :
    ∃ t, exec i s = .next t ∧ OnlyRegsChange s t ∧ t.reg x = c ∧ (x ≠ 0xF#4 → t.reg 0xF#4 = b) ∧
      ∀ r, r ≠ x → r ≠ 0xF#4 → t.reg r = s.reg r := by
  refine ⟨_, hexec, (onlyRegsChange_setFlag s b).trans (onlyRegsChange_setReg _ x c), ?_, fun hx => ?_, fun r hr hF => ?_⟩
  · rw [State.reg_setReg, if_pos rfl]
  · rw [State.reg_setReg, if_neg hx.symm, State.reg_setFlag, if_pos rfl]
  · rw [State.reg_setReg, if_neg hr, State.reg_setFlag, if_neg hF]

/-- With `x = 0xF` every register but VF stays. -/
theorem exec_flag_then_flag (hexec : exec i s = .next ((s.setFlag b).setReg 0xF#4 c)) :
    ∃ t, exec i s = .next t ∧ OnlyRegsChange s t ∧ t.reg 0xF#4 = c ∧ ∀ r, r ≠ 0xF#4 → t.reg r = s.reg r := by
  obtain ⟨t, he, hframe, hresult, -, hrest⟩ := exec_flag_then_result hexec
  exact ⟨t, he, hframe, hresult, fun r hr => hrest r hr hr⟩

theorem State.reg_setFlag_of_ne (s : State) (b : Byte) (hx : x ≠ 0xF#4) : (s.setFlag b).reg x = s.reg x := by
  rw [State.reg_setFlag, if_neg hx]

theorem State.flag_setFlag (s : State) (b : Byte) : (s.setFlag b).reg 0xF#4 = b := by
  rw [State.reg_setFlag, if_pos rfl]

theorem exec_addReg (x y : Nibble) (s : State) :
    exec (.addReg x y) s = .next ((s.setFlag (carryFlag (s.reg x) (s.reg y))).setReg x (s.reg x + s.reg y)) := rfl

/-- Sub writes its result from the registers as the flag write left them. -/
theorem exec_subReg {b : Byte} (hb : greaterFlag (s.reg x) (s.reg y) = b) :
    exec (.subReg x y) s = .next ((s.setFlag b).setReg x ((s.setFlag b).reg x - (s.setFlag b).reg y)) := by
  rw [← hb]
  rfl

/-- Subn writes its result from the registers as the flag write left them. -/
theorem exec_subnReg {b : Byte} (hb : greaterFlag (s.reg y) (s.reg x) = b) :
    exec (.subnReg x y) s = .next ((s.setFlag b).setReg x ((s.setFlag b).reg y - (s.setFlag b).reg x)) := by
  rw [← hb]
  rfl

theorem exec_shl (x y : Nibble) (s : State) :
    exec (.shl x y) s = .next ((s.setFlag (highBitFlag (s.reg x))).setReg x
      ((s.setFlag (highBitFlag (s.reg x))).reg x <<< 1)) := rfl

/-- Settles O39: the sum is taken before the flag is written, so the forms that name VF are no exception. -/
theorem addSetsCarry : Obligations.AddSetsCarry := by
  refine ⟨fun _ => decode_eq_addReg, fun x y s => ?_⟩
  obtain ⟨t, he, hframe, hresult, hflag, hrest⟩ := exec_flag_then_result (exec_addReg x y s)
  exact ⟨t, he, hframe, by rw [hresult, BitVec.toNat_add], fun hx => (hflag hx).trans (carryFlag_eq _ _), hrest⟩

/-- Settles O40: on operands other than VF the flag write does not reach the operands. -/
theorem subtractionsSetGreaterFlag : Obligations.SubtractionsSetGreaterFlag := by
  refine ⟨fun _ => decode_eq_subReg, fun _ => decode_eq_subnReg, fun x y s hx hy => ?_, fun x y s hx hy => ?_⟩
  · obtain ⟨t, he, hframe, hresult, hflag, hrest⟩ := exec_flag_then_result (exec_subReg (s := s) (x := x) (y := y) rfl)
    rw [s.reg_setFlag_of_ne _ hx, s.reg_setFlag_of_ne _ hy] at hresult
    exact ⟨t, he, hframe, by rw [hresult, byte_sub_toNat], (hflag hx).trans (greaterFlag_eq _ _), hrest⟩
  · obtain ⟨t, he, hframe, hresult, hflag, hrest⟩ := exec_flag_then_result (exec_subnReg (s := s) (x := x) (y := y) rfl)
    rw [s.reg_setFlag_of_ne _ hx, s.reg_setFlag_of_ne _ hy] at hresult
    exact ⟨t, he, hframe, by rw [hresult, byte_sub_toNat], (hflag hx).trans (greaterFlag_eq _ _), hrest⟩

/-- Settles O42: with `x = 0xF` the shift doubles the flag just written. -/
theorem shiftLeftDropsHighBit : Obligations.ShiftLeftDropsHighBit := by
  refine ⟨fun _ => decode_eq_shl, fun x y s => ?_⟩
  obtain ⟨t, he, hframe, hresult, hflag, hrest⟩ := exec_flag_then_result (exec_shl x y s)
  refine ⟨t, he, hframe, fun hx => ⟨?_, ?_⟩, ?_, hrest⟩
  · rw [hresult, s.reg_setFlag_of_ne _ hx, byte_shiftLeft_one_toNat]
  · rw [hflag hx, highBitFlag_toNat]
  · rintro rfl
    have hbyte : (s.reg 0xF#4).toNat < 256 := (s.reg 0xF#4).isLt
    rw [hresult, s.flag_setFlag, byte_shiftLeft_one_toNat, highBitFlag_toNat]
    omega

/-- Settles O43: where an operand is VF, the result write reads the flag just written in its place. -/
theorem flagRegisterAsOperand : Obligations.FlagRegisterAsOperand := by
  refine ⟨?_, ?_, fun s => ?_, ?_, ?_, fun s => ?_⟩
  · rintro y s _ hy rfl
    obtain ⟨t, he, hframe, hresult, hrest⟩ := exec_flag_then_flag (exec_subReg (s := s) (y := y) rfl)
    rw [s.flag_setFlag, s.reg_setFlag_of_ne _ hy] at hresult
    exact ⟨t, he, hframe, by rw [hresult, byte_sub_toNat, greaterFlag_toNat], hrest⟩
  · rintro x s _ hx rfl
    obtain ⟨t, he, hframe, hresult, hflag, hrest⟩ := exec_flag_then_result (exec_subReg (s := s) (x := x) (y := 0xF#4) rfl)
    rw [s.flag_setFlag, s.reg_setFlag_of_ne _ hx] at hresult
    exact ⟨t, he, hframe, by rw [hflag hx, greaterFlag_toNat], by rw [hresult, byte_sub_toNat, greaterFlag_toNat], hrest⟩
  · obtain ⟨t, he, hframe, hresult, hrest⟩ := exec_flag_then_flag (exec_subReg (s := s) (y := 0xF#4) rfl)
    exact ⟨t, he, hframe, hresult.trans (BitVec.sub_self _), hrest⟩
  · rintro y s _ hy rfl
    obtain ⟨t, he, hframe, hresult, hrest⟩ := exec_flag_then_flag (exec_subnReg (s := s) (y := y) rfl)
    rw [s.flag_setFlag, s.reg_setFlag_of_ne _ hy] at hresult
    exact ⟨t, he, hframe, by rw [hresult, byte_sub_toNat, greaterFlag_toNat], hrest⟩
  · rintro x s _ hx rfl
    obtain ⟨t, he, hframe, hresult, hflag, hrest⟩ := exec_flag_then_result (exec_subnReg (s := s) (x := x) (y := 0xF#4) rfl)
    rw [s.flag_setFlag, s.reg_setFlag_of_ne _ hx] at hresult
    exact ⟨t, he, hframe, by rw [hflag hx, greaterFlag_toNat], by rw [hresult, byte_sub_toNat, greaterFlag_toNat], hrest⟩
  · obtain ⟨t, he, hframe, hresult, hrest⟩ := exec_flag_then_flag (exec_subnReg (s := s) (y := 0xF#4) rfl)
    exact ⟨t, he, hframe, hresult.trans (BitVec.sub_self _), hrest⟩

/-! ## Random -/

theorem exec_rnd (x : Nibble) (kk : Byte) (s : State) : exec (.rnd x kk) s = .next (s.setReg x (s.rnd &&& kk)) := rfl

/-- Settles O44: the handler is one write of `V[x]`, and a queued sample makes the random input any byte. -/
theorem randomIsMaskedInput : Obligations.RandomIsMaskedInput :=
  ⟨fun _ => decode_eq_rnd, fun x kk s => exec_setReg_reg (exec_rnd x kk s),
    fun s b => ⟨_, onlyInputsDiffer_withInputs s [⟨s.key, b⟩] s.tick, rfl, rfl⟩⟩

end Sys2Proof.Machine
end

section
/-! Write-delay and Write-sound (spec/46_timers_keys.md R162, R163). -/

namespace Sys2Proof.Machine

variable {s : State} {x : Nibble}

theorem exec_ldDtVx (x : Nibble) (s : State) : exec (.ldDtVx x) s = .next (s.setDt (s.reg x)) := rfl

theorem exec_ldStVx (x : Nibble) (s : State) : exec (.ldStVx x) s = .next (s.setSt (s.reg x)) := rfl

theorem State.soundActive_eq (s : State) : s.soundActive = decide (0 < s.st.toNat) := by
  rw [State.soundActive, Bool.eq_iff_iff, Bool.not_eq_true', beq_eq_false_iff_ne, decide_eq_true_eq, ne_eq,
    ← BitVec.toNat_inj, BitVec.toNat_ofNat]
  omega

theorem step_ldDtVx (h : s.Runs (.ldDtVx x)) :
    step s = .next ((s.fetched s.fetchWord).setDt (s.reg x)).decayTimers.nextInput :=
  step_of_runs_ok h (exec_ldDtVx x _) h.flt_eq_none

theorem step_ldStVx (h : s.Runs (.ldStVx x)) :
    step s = .next ((s.fetched s.fetchWord).setSt (s.reg x)).decayTimers.nextInput :=
  step_of_runs_ok h (exec_ldStVx x _) h.flt_eq_none

/-- Settles O58: each handler is one write of its timer, and the Step's end takes one off the written value. -/
theorem timerWritesDecayAtOnce : Obligations.TimerWritesDecayAtOnce := by
  refine ⟨fun _ => decode_eq_ldDtVx, fun _ => decode_eq_ldStVx, fun x s => ⟨_, exec_ldDtVx x s, rfl, rfl⟩,
    fun x s => ⟨_, exec_ldStVx x s, rfl, rfl⟩, fun x s h => ⟨_, step_ldDtVx h, decay_toNat (s.reg x)⟩,
    fun x s h => ⟨_, step_ldStVx h, decay_toNat (s.reg x), ?_⟩⟩
  rw [State.soundActive_eq, State.nextInput_st, State.decayTimers_st, decay_toNat, State.setSt_st]
  exact decide_eq_decide.mpr Nat.sub_pos_iff_lt

end Sys2Proof.Machine
end

section
/-! Draw (spec/45_display.md R151, R152). -/

namespace Sys2Proof.Machine

variable {s t : State} {x y n : Nibble}

/-! ## The collision flag of a scan -/

theorem flagByte_any_eq_one {ps : List Nat} {on : Nat → Bool} (h : ∃ p ∈ ps, on p = true) : flagByte (ps.any on) = 1#8 := by
  rw [List.any_eq_true.mpr h]
  rfl

theorem flagByte_any_eq_zero {ps : List Nat} {on : Nat → Bool} (h : ∀ p ∈ ps, on p = false) : flagByte (ps.any on) = 0#8 := by
  rw [List.any_eq_false.mpr fun p hp => by simp [h p hp]]
  rfl

/-! ## A Draw that takes no fault -/

/-- Where every row lies in memory and every set bit on the display, the drawn pixels are turned over, VF tells whether one
of them was on, and nothing else changes. -/
theorem exec_drw (hrows : n.toNat = 0 ∨ s.i.toNat + n.toNat ≤ 4096) (hfit : ∀ p ∈ s.drawnPixels x y n, p < 2048) :
    ∃ t, exec (.drw x y n) s = .next t ∧ OnlyDisplayAndRegsChange s t ∧
      (∀ p, t.pixel p = (s.pixel p ^^ decide (p ∈ s.drawnPixels x y n))) ∧
      t.reg 0xF#4 = flagByte ((s.drawnPixels x y n).any s.pixel) ∧ ∀ r, r ≠ 0xF#4 → t.reg r = s.reg r := by
  obtain ⟨d, he, hpixel⟩ := execDrw_ok x y n s hrows hfit
  refine ⟨_, he, rfl, hpixel, ?_, fun r hr => ?_⟩
  · rw [State.reg_setFlag, if_pos rfl]
    rfl
  · rw [State.reg_setFlag, if_neg hr, State.reg_setDisp]

/-- Conversely a Draw that takes no fault has its rows in memory and its set bits on the display. -/
theorem drw_fits_of_no_fault (he : exec (.drw x y n) s = .next t) (hf : t.flt = none) :
    (n.toNat = 0 ∨ s.i.toNat + n.toNat ≤ 4096) ∧ ∀ p ∈ s.drawnPixels x y n, p < 2048 := by
  by_cases hrows : n.toNat = 0 ∨ s.i.toNat + n.toNat ≤ 4096
  · refine ⟨hrows, ?_⟩
    rw [execDrw_read x y n s hrows] at he
    cases hplot : plotPixels (s.drawnPixels x y n) s.disp false with
    | error r => rw [hplot] at he; cases he; cases hf
    | ok q => exact plotPixels_reaches hplot
  · rw [execDrw_memFault x y n s (by omega) (by omega)] at he
    cases he
    cases hf

theorem nibble_eq_zero_iff : n = 0#4 ↔ n.toNat = 0 := by
  rw [← BitVec.toNat_inj, BitVec.toNat_ofNat]

/-- Settles O53: the drawn pixels are the covered ones. -/
theorem drawTogglesCoveredPixels : Obligations.DrawTogglesCoveredPixels := by
  refine ⟨fun _ => decode_eq_drw, fun x y n s hrows hfit => ?_⟩
  obtain ⟨t, he, hframe, hpixel, hflag, hrest⟩ := exec_drw (s := s) (x := x) (y := y) (n := n)
    (hrows.imp_left nibble_eq_zero_iff.mp) fun p hp => Nat.lt_succ_of_le (hfit p ((s.mem_drawnPixels ..).mp hp))
  refine ⟨t, he, hframe, fun p hp => ?_, fun p hp => ?_, fun ⟨p, hp, hon⟩ => ?_, fun hoff => ?_, hrest⟩
  · rw [hpixel, decide_eq_true ((s.mem_drawnPixels ..).mpr hp), Bool.xor_true]
  · rw [hpixel, decide_eq_false (mt (s.mem_drawnPixels ..).mp hp), Bool.xor_false]
  · rw [hflag, flagByte_any_eq_one ⟨p, (s.mem_drawnPixels ..).mpr hp, hon⟩]
  · rw [hflag, flagByte_any_eq_zero fun p hp => hoff p ((s.mem_drawnPixels ..).mp hp)]

/-! ## The faults -/

/-- The linear index rises in scan order: a row is 64 pixels, and a sprite's is 8 wide. -/
theorem State.spriteIndex_le (s : State) {r c r' c' : Nat} (hc : c < 8) (h : r < r' ∨ r = r' ∧ c ≤ c') :
    s.spriteIndex x y r c ≤ s.spriteIndex x y r' c' := by
  simp only [State.spriteIndex]
  omega

/-- Settles O54: the first set bit beyond the last cell in scan order is the one of least index. -/
theorem drawFaults : Obligations.DrawFaults := by
  refine ⟨fun x y n s hn h => ⟨_, execDrw_memFault x y n s (nibble_eq_zero_iff.not.mp hn) h, faultTaken_takeFault s _⟩,
    fun x y n s r c hrows hbit hfar hfirst => ?_⟩
  refine ⟨_, execDrw_displayFault x y n s (.inr hrows) (s.spriteIndex x y r c)
    ((s.mem_drawnPixels ..).mpr ⟨r, c, hbit, rfl⟩) hfar fun q hq hqfar => ?_, faultTaken_takeFault s _⟩
  obtain ⟨r', c', hbit', rfl⟩ := (s.mem_drawnPixels ..).mp hq
  exact s.spriteIndex_le hbit.2.1 (hfirst r' c' hbit' hqfar)

/-! ## Drawing twice -/

/-- The drawn pixels are the same from a state that differs in the display and in no register Draw reads its origin from. -/
theorem drawnPixels_of_frame (hframe : OnlyDisplayAndRegsChange s t) (hx : t.reg x = s.reg x) (hy : t.reg y = s.reg y)
    (n : Nibble) : t.drawnPixels x y n = s.drawnPixels x y n := by
  have hread : t.readByte = s.readByte := by rw [hframe]; rfl
  have hi : t.i = s.i := by rw [hframe]
  simp only [State.drawnPixels, State.originColumn, State.originRow, State.memOperand, hx, hy, hread, hi]

/-- Settles O55: the second Draw turns over the same pixels again, each of which is then what it was not before the first. -/
theorem drawTwiceRestoresDisplay : Obligations.DrawTwiceRestoresDisplay := by
  intro x y n s t hs he hf hx hy
  obtain ⟨hrows, hfit⟩ := drw_fits_of_no_fault he hf
  obtain ⟨t', he', hframe, hpixel, -, -⟩ := exec_drw hrows hfit
  obtain rfl : t' = t := by rw [he'] at he; cases he; rfl
  have hsame : t'.drawnPixels x y n = s.drawnPixels x y n := drawnPixels_of_frame hframe hx hy n
  have hi : t'.i = s.i := by rw [hframe]
  obtain ⟨u, heu, huframe, hupixel, huflag, -⟩ := exec_drw (s := t') (hi ▸ hrows) (hsame ▸ hfit)
  have hflip {p : Nat} (hp : s.Covers x y n p) : t'.pixel p = !s.pixel p := by
    rw [hpixel, decide_eq_true ((s.mem_drawnPixels ..).mpr hp), Bool.xor_true]
  rw [hsame] at hupixel huflag
  refine ⟨u, heu, ?_, display_ext fun p _ => ?_, fun ⟨p, hp, hoff⟩ => ?_, fun hon => ?_⟩
  · rw [huframe]
    exact hf
  · change u.pixel p = s.pixel p
    rw [hupixel, hpixel, Bool.xor_assoc, Bool.xor_self, Bool.xor_false]
  · rw [huflag, flagByte_any_eq_one ⟨p, (s.mem_drawnPixels ..).mpr hp, by rw [hflip hp, hoff]; rfl⟩]
  · rw [huflag, flagByte_any_eq_zero fun p hp => ?_]
    have hp := (s.mem_drawnPixels ..).mp hp
    rw [hflip hp, hon p hp]
    rfl

end Sys2Proof.Machine
end
